-- ==== Sys2Proof/Word.lean ====
section
/-! DEFINITION. The words, bytes, slot numbers and numbers of PASC (spec/00_scope.md R6, R11; spec/10_state.md R20). -/

namespace Sys2Proof

/-- A word register or a command word: 32 bits (R20, R70). -/
abbrev Word := BitVec 32

/-- One byte of the byte view of a slot (R53). -/
abbrev Byte := BitVec 8

/-- An 8-bit field of a command word that is used as it stands: a slot number or a count (R70, R71). -/
abbrev Field8 := BitVec 8

/-- The number type of every real-valued quantity: the exact rationals (R6, decision D4). -/
abbrev Num := Rat

/-- The contents of one slot: a SampleBuffer, a list of integers (R44, R50). That each lies in `[-32767, 32767]`
is an invariant of the machine (`Sys2Proof.Machine.Inv`), not part of the type. -/
abbrev Buffer := List Int

/-- `NBUF`, the number of buffer slots (R11, decision D11). -/
abbrev slotCount : Nat := 256

/-- `SAMPLE_MAX`: every sample lies in `[-sampleMax, sampleMax]` (R11). -/
abbrev sampleMax : Nat := 32767

end Sys2Proof
end

