-- ==== Sys2Proof/Syntax.lean ====
section
/-! DEFINITION. The commands of PASC (one constructor per row of spec/opcode_table.json), the illegal encodings, the
registers, the host's actions and what they return, as plain data (spec/30_encoding.md, spec/10_state.md R20,
spec/46_system.md). -/

namespace Sys2Proof

/-- The eight commands (R72). -/
inductive Instr where
  /-- `NOP` (R160) -/
  | nop
  /-- `OSCINIT` (R90) -/
  | oscinit
  /-- `OSCSTEP` (R91) -/
  | oscstep
  /-- `ENVEVAL` (R110) -/
  | enveval
  /-- `RENDER s<dst>` (R120) -/
  | render (dst : Field8)
  /-- `MIX s<dst>, s<src>, #<cnt>` (R130) -/
  | mix (dst src cnt : Field8)
  /-- `REVERB s<dst>, s<src>` (R140) -/
  | reverb (dst src : Field8)
  /-- `LOWPASS s<dst>, s<src>` (R150) -/
  | lowpass (dst src : Field8)
deriving DecidableEq, Repr

/-- Why a command word encodes no command: R73 (a), (b), (c). -/
inductive Illegal where
  /-- (a) `OP` is 0x08 to 0xFF -/
  | reservedOpcode
  /-- (b) a field the command does not use is non-zero -/
  | unusedField
  /-- (c) `MIX` with `SRC + CNT > 256` -/
  | mixRange
deriving DecidableEq, Repr

/-- Every cause an error can record, one per row of the table of R172, in its order. -/
inductive Cause where
  /-- 1: `x[SRATE] <= 0` -/
  | sampleRate
  /-- 2: `x[DUR] < 0` -/
  | duration
  /-- 3: `x[PW] <= 0` or `x[PW] >= 1` -/
  | pulseWidth
  /-- 4: `floor(x[DUR] * x[SRATE]) > BUF_CAP` -/
  | bufferCap
  /-- 5: `x[WAVE] > 5` -/
  | waveform
  /-- 6: `x[AMP] < 0` or `x[AMP] > 1` -/
  | amplitude
  /-- 7: a negative duration, or a sustain outside `[0,1]`, of the envelope -/
  | envelope
  /-- 8: `CTRL.NOFF_EN = 1` and `x[NOFF] < 0` -/
  | noteOff
  /-- 9: `CNT = 0` -/
  | emptyMix
  /-- 10: a reverb delay below one sample -/
  | delay
  /-- 11: `x[CUTOFF] < 0` or `x[CUTOFF] > 1` -/
  | cutoff
  /-- 12: `x[ENVT] < 0` -/
  | envTime
  /-- 13: a `LOAD` image that is odd in bytes, too long, or holds -32768 -/
  | loadImage
  /-- 32: `CNT * L > RES_CAP` -/
  | resource
  /-- 48, 49, 50: the word encodes no command -/
  | illegal (k : Illegal)
deriving DecidableEq, Repr

/-- The source's WaveformKind, in the order of R75. -/
inductive Waveform where
  | sine | square | pulse | sawtooth | triangle | noise
deriving DecidableEq, Repr

/-- The thirty defined registers, in the order of the table of R20. -/
inductive Reg where
  | wave | freq | amp | atk | dcy | sus | rel | detune | pw | vrate | vdepth | srate | dur | noff | ctrl | mgain
  | rdelay | rdecay | cutoff | reso | oscf | oscout | envt | envout | phase | lfsr | nhold | status | clipcnt | cmd
deriving DecidableEq, Repr

/-- What a register holds: a `Num`, or a 32-bit word (R20). -/
inductive Value where
  | num (x : Num)
  | word (w : Word)
deriving DecidableEq, Repr

/-- What the host gives `LOAD`: 16-bit samples as (signed) integers, or a little-endian byte image (R164). -/
inductive Image where
  | samples (l : List (BitVec 16))
  | bytes (l : List Byte)
deriving DecidableEq, Repr

/-- The form in which the host asks `READ` for a slot (R163). -/
inductive ImageForm where
  | samples | bytes
deriving DecidableEq, Repr

/-- One action of the host (R5, R76), or the platform's reset event (R190). A command is issued by a write to `CMD`
(R43), that is `wr 29 (.word w)`. -/
inductive HostAction where
  /-- `WR <REG>, <value>` (R161) -/
  | wr (reg : Fin 32) (v : Value)
  /-- `RD <REG>` (R162) -/
  | rd (reg : Fin 32)
  /-- `READ s<slot>` (R163) -/
  | read (slot : Field8) (form : ImageForm)
  /-- `LOAD s<slot>, ...` (R164) -/
  | load (slot : Field8) (image : Image)
  /-- `PAD s<dst>, s<src>, n` (R77): a `READ`, and then a `LOAD` of what it returned with `n` zeros in front -/
  | pad (dst src : Field8) (n : Nat)
  /-- reset (R190) -/
  | reset
deriving DecidableEq, Repr

/-- What a host transaction returns to the host: `RD` a value, `READ` a list of samples or its byte view. -/
inductive Reply where
  | value (v : Value)
  | samples (l : Buffer)
  | bytes (l : List Byte)
deriving DecidableEq, Repr

end Sys2Proof
end

