-- ==== Sys2Proof/WellFormed.lean ====
section
/-! DEFINITION. Which commands have an encoding (spec/30_encoding.md R71, R73). -/

namespace Sys2Proof

/-- Every slot field names an existing slot; only `MIX` can name slots that do not exist, when `SRC + CNT > 256`
(R71). -/
def Instr.wf : Instr → Bool
  | .nop | .oscinit | .oscstep | .enveval => true
  | .render _ => true
  | .mix _ src cnt => decide (src.toNat + cnt.toNat ≤ slotCount)
  | .reverb _ _ => true
  | .lowpass _ _ => true

end Sys2Proof
end

