-- ==== Sys2Proof/Decode.lean ====
section
/-! DEFINITION. The command word: its fields, the decoder (total on all words, rejecting by name) and the encoder
(spec/30_encoding.md R70 to R74). -/

namespace Sys2Proof

/-- Field `OP`, bits 7:0 (R70). -/
def opField (w : Word) : Field8 := w.extractLsb' 0 8
/-- Field `DST`, bits 15:8 (R70). -/
def dstField (w : Word) : Field8 := w.extractLsb' 8 8
/-- Field `SRC`, bits 23:16 (R70). -/
def srcField (w : Word) : Field8 := w.extractLsb' 16 8
/-- Field `CNT`, bits 31:24 (R70). -/
def cntField (w : Word) : Field8 := w.extractLsb' 24 8

/-- The decoder, in the order of R74: (a) the opcode, (b) the unused fields, (c) the range of `MIX`. -/
def decode (w : Word) : Except Illegal Instr :=
  let d := dstField w
  let a := srcField w
  let n := cntField w
  match (opField w).toNat with
  | 0 => if d = 0 ∧ a = 0 ∧ n = 0 then .ok .nop else .error .unusedField
  | 1 => if d = 0 ∧ a = 0 ∧ n = 0 then .ok .oscinit else .error .unusedField
  | 2 => if d = 0 ∧ a = 0 ∧ n = 0 then .ok .oscstep else .error .unusedField
  | 3 => if d = 0 ∧ a = 0 ∧ n = 0 then .ok .enveval else .error .unusedField
  | 4 => if a = 0 ∧ n = 0 then .ok (.render d) else .error .unusedField
  | 5 => if a.toNat + n.toNat ≤ slotCount then .ok (.mix d a n) else .error .mixRange
  | 6 => if n = 0 then .ok (.reverb d a) else .error .unusedField
  | 7 => if n = 0 then .ok (.lowpass d a) else .error .unusedField
  | _ => .error .reservedOpcode

/-- Format `C` (R70): `CNT || SRC || DST || OP`. -/
def formatC (op dst src cnt : Field8) : Word := cnt ++ src ++ dst ++ op

/-- The opcode of a command (R72). -/
def Instr.opcode : Instr → Field8
  | .nop => 0x00
  | .oscinit => 0x01
  | .oscstep => 0x02
  | .enveval => 0x03
  | .render _ => 0x04
  | .mix _ _ _ => 0x05
  | .reverb _ _ => 0x06
  | .lowpass _ _ => 0x07

/-- The command word of a command (R70, R72): a field the command does not use is zero. -/
def encode (i : Instr) : Word :=
  match i with
  | .nop | .oscinit | .oscstep | .enveval => formatC i.opcode 0 0 0
  | .render d => formatC i.opcode d 0 0
  | .mix d a n => formatC i.opcode d a n
  | .reverb d a => formatC i.opcode d a 0
  | .lowpass d a => formatC i.opcode d a 0

/-- The word the host's table row stands for: bit 0 is the least significant bit of the command word, and every bit
above `nbits` is 0. -/
def tableWord (nbits w : Nat) : Word := BitVec.ofNat 32 (w % 2 ^ nbits)

/-- The instruction the decoder reads from a word of the opcode table. -/
def decodeTableWord (nbits w : Nat) : Option Instr :=
  match decode (tableWord nbits w) with
  | .ok i => some i
  | .error _ => none

end Sys2Proof
end

