-- ==== Sys2Proof/Config.lean ====
section
/-! DEFINITION. The OPEN parameters of PASC (spec/00_scope.md R7, R8, R9, R11): what one configuration fixes and the
spec leaves open. -/

namespace Sys2Proof

/-- The free choices of one configuration. Each field is UNCONSTRAINED; the parameter the spec names is read from it
by the accessor of the same row (`Sys2Proof/Machine/Numeric.lean`), which imposes the constraint the spec states and
nothing else. So every `Config` is a legal configuration, and every legal configuration is some `Config`
(`config_realises in Sys2Proof/Laws/Numeric.lean`).

| field | the spec's parameter | accessor | constraint |
|---|---|---|---|
| `sinFree` | `SIN` (R7) | `Config.sin` | the five named properties of R7 |
| `pow2cFree` | `POW2C` (R8) | `Config.pow2c` | the three named properties of R8 |
| `tieUp` | `ROUND` (R9) | `Config.round` | `ROUND_NEAREST`; only a tie is free |
| `seedFree` | `LFSR_SEED` (R11) | `Config.lfsrSeed` | 16-bit, non-zero |
| `noiseFree` | `NOISE_INIT` (R11) | `Config.noiseInit` | in `[-1,1]` |
| `epsFree` | `LPF_EPS` (R11) | `Config.lpfEps` | `> 0` |
| `bufCap` | `BUF_CAP` (R11) | itself | none |
| `resCap` | `RES_CAP` (R11) | itself | none | -/
structure Config where
  sinFree   : Num → Num
  pow2cFree : Num → Num
  /-- whether `ROUND (n + 1/2)` is `n + 1` (otherwise it is `n`) -/
  tieUp     : Int → Bool
  seedFree  : BitVec 16
  noiseFree : Num
  epsFree   : Num
  bufCap    : Nat
  resCap    : Nat
deriving Inhabited

/-- The configuration of the machine: fixed for its life and not state (R47). No body: nothing in Lean can evaluate
it or prove a value of it, so a theorem about the machine holds for every configuration of the spec. -/
opaque Config.machine : Config

end Sys2Proof
end

