-- ==== Sys2Proof/Machine/Numeric.lean ====
section
/-! DEFINITION. The exact helper functions (spec/00_scope.md R10) and the parameters of a configuration (R7, R8, R9,
R11), each with the constraint the spec states for it. -/

namespace Sys2Proof

/-- `floor(x)`, the greatest integer not above `x` (R10). -/
def floorNum (x : Num) : Int := x.floor

/-- `frac(x) = x - floor(x)`, in `[0,1)` (R10). -/
def fracNum (x : Num) : Num := x - (floorNum x : Num)

/-- `trunc(x)`: the fractional part dropped, toward zero (R10, decision D7). -/
def truncNum (x : Num) : Int := if 0 ≤ x then floorNum x else -floorNum (-x)

/-- `abs(x)` (R10). -/
def absNum (x : Num) : Num := if x < 0 then -x else x

/-- `clip(x) = min(max(x, -32767), 32767)` (R10). -/
def clipNum (x : Num) : Num := min (max x (-32767)) 32767

/-- The exact values R7 gives `SIN` on `[0,1)`: `SIN_ZERO`, `SIN_QUARTERS`, `SIN_TWELFTHS`. -/
def sinExact (p : Num) : Option Num :=
  if p = 0 then some 0
  else if p = 1 / 12 ∨ p = 5 / 12 then some (1 / 2)
  else if p = 1 / 4 then some 1
  else if p = 1 / 2 then some 0
  else if p = 7 / 12 ∨ p = 11 / 12 then some (-(1 / 2))
  else if p = 3 / 4 then some (-1)
  else none

/-- `SIN` (R7): periodic, the exact values at the named phases, and at every other phase a free value held in
`[-1,1]`. -/
def Config.sin (c : Config) (x : Num) : Num :=
  match sinExact (fracNum x) with
  | some v => v
  | none => min (max (c.sinFree (fracNum x)) (-1)) 1

/-- `2^k` for an integer `k`. -/
def pow2Int (k : Int) : Num :=
  if 0 ≤ k then ((2 ^ k.toNat : Nat) : Num) else 1 / ((2 ^ (-k).toNat : Nat) : Num)

/-- `POW2C` (R8): `2^k` at `1200 * k`, and at every other offset a free positive value (a free choice that is not
positive stands for 1). -/
def Config.pow2c (c : Config) (x : Num) : Num :=
  if (x / 1200).den = 1 then pow2Int (x / 1200).num
  else if 0 < c.pow2cFree x then c.pow2cFree x else 1

/-- `ROUND` (R9): the nearest integer; which of the two at a tie is free. -/
def Config.round (c : Config) (x : Num) : Int :=
  if fracNum x < 1 / 2 then floorNum x
  else if 1 / 2 < fracNum x then floorNum x + 1
  else if c.tieUp (floorNum x) then floorNum x + 1 else floorNum x

/-- `LFSR_SEED` (R11): any non-zero 16-bit value (a free choice of 0 stands for 1). -/
def Config.lfsrSeed (c : Config) : BitVec 16 := if c.seedFree = 0 then 1 else c.seedFree

/-- `NOISE_INIT` (R11): any value in `[-1,1]`. -/
def Config.noiseInit (c : Config) : Num := min (max c.noiseFree (-1)) 1

/-- `LPF_EPS` (R11): any positive value (a free choice that is not positive stands for 1). -/
def Config.lpfEps (c : Config) : Num := if 0 < c.epsFree then c.epsFree else 1

end Sys2Proof
end

