-- ==== Sys2Proof/Machine/State.lean ====
section
/-! DEFINITION. The state of PASC, the ways a step can stop, and the state after reset (spec/10_state.md, spec/20_memory.md
R50, spec/70_reset_and_hazards.md R190). -/

namespace Sys2Proof.Machine

/-- The registers the host writes and no command does: numbers 0 to 20 and 22 (R20, R48). -/
structure Params where
  /-- 0 `WAVE` (R21) -/
  wave : Word
  /-- 1 `FREQ` (R22) -/
  freq : Num
  /-- 2 `AMP` (R23) -/
  amp : Num
  /-- 3 `ATK` (R24) -/
  atk : Num
  /-- 4 `DCY` (R24) -/
  dcy : Num
  /-- 5 `SUS` (R24) -/
  sus : Num
  /-- 6 `REL` (R24) -/
  rel : Num
  /-- 7 `DETUNE` (R25) -/
  detune : Num
  /-- 8 `PW` (R26) -/
  pw : Num
  /-- 9 `VRATE` (R27) -/
  vrate : Num
  /-- 10 `VDEPTH` (R27) -/
  vdepth : Num
  /-- 11 `SRATE` (R28) -/
  srate : Num
  /-- 12 `DUR` (R29) -/
  dur : Num
  /-- 13 `NOFF` (R30) -/
  noff : Num
  /-- 14 `CTRL` (R42) -/
  ctrl : Word
  /-- 15 `MGAIN` (R31) -/
  mgain : Num
  /-- 16 `RDELAY` (R32) -/
  rdelay : Num
  /-- 17 `RDECAY` (R32) -/
  rdecay : Num
  /-- 18 `CUTOFF` (R33) -/
  cutoff : Num
  /-- 19 `RESO` (R33) -/
  reso : Num
  /-- 20 `OSCF` (R34) -/
  oscf : Num
  /-- 22 `ENVT` (R35) -/
  envt : Num
deriving DecidableEq, Repr

/-- The source's render state (R36 to R38). -/
structure RenderState where
  /-- 24 `PHASE` (R36) -/
  phase : Num
  /-- 25 `LFSR` (R37): the shift register, bits 15:0; bits 31:16 read as zero and are not stored -/
  lfsr : BitVec 16
  /-- 26 `NHOLD` (R38) -/
  nhold : Num
deriving DecidableEq, Repr

/-- Buffer memory (R44, R50): (slot number, contents) pairs in one canonical form, `Memory.wf`: slot numbers strictly
rising, and no entry that is the empty list, which is what a slot not listed holds (the reset contents of R49). -/
abbrev Memory := List (Nat × Buffer)

/-- Everything the spec gives the machine, and two fields of the model's own: `inbox`, the host's actions still to
come, and `outbox`, what the host's transactions have returned so far (notes/assumptions/1.md). `CMD` (29) holds no
value (R43). -/
structure State where
  /-- registers 0 to 20 and 22 -/
  params : Params
  /-- registers 24, 25, 26 -/
  osc : RenderState
  /-- 21 `OSCOUT` (R34) -/
  oscout : Num
  /-- 23 `ENVOUT` (R35) -/
  envout : Num
  /-- 27 `STATUS` (R39) -/
  status : Word
  /-- 28 `CLIPCNT` (R41) -/
  clipcnt : Word
  /-- buffer memory (R44, R50) -/
  slots : Memory
  /-- the model's own: the host's actions still to be performed, the next one first (R61, R76) -/
  inbox : List HostAction
  /-- the model's own: what `RD` and `READ` have returned to the host, the first one first (R162, R163) -/
  outbox : List Reply
deriving DecidableEq, Repr

/-- The machine never stops with a fault: an error of a command is reported in `STATUS` and the machine goes on
(R176, R178), every command terminates (R201), and no access can leave the 256 slots (R58, R71). No constructor. -/
inductive Fault where
deriving DecidableEq, Repr

/-- Why a step is refused. All but the first are host accesses that R46 gives no meaning ("A model refuses such an
access (the host has no such move)"), raised by the host transactions of `Sys2Proof/Machine/Host.lean`, never by a
command. All are safe: the model stops where the spec defines nothing. -/
inductive Refusal where
  /-- raised by no arm of `exec` once every command has its meaning; safe -/
  | notModelled (mnemonic : String)
  /-- any access to register 30 or 31 (R46); raised by `hostWrite`, `hostRead`; safe -/
  | reservedRegister (reg : Fin 32)
  /-- a write to register 21, 23 or 24 to 28 (R46); raised by `hostWrite`; safe -/
  | writeToReadOnly (r : Reg)
  /-- a read of register 29 (R46); raised by `hostRead`; safe -/
  | readOfWriteOnly (r : Reg)
  /-- a write of a word to a `Num` register or of a `Num` to a word register, which R161 does not admit ("a value of
  the register's type"); raised by `hostWrite`; safe -/
  | wrongValueType (r : Reg)
deriving DecidableEq, Repr

/-- The fresh render state (R90; spec/00_scope.md, Glossary). -/
def RenderState.fresh (c : Config) : RenderState := { phase := 0, lfsr := c.lfsrSeed, nhold := c.noiseInit }

/-- The parameter registers after reset (R49). -/
def Params.reset : Params where
  wave := 0
  freq := 0
  amp := 0
  atk := 0
  dcy := 0
  sus := 0
  rel := 0
  detune := 0
  pw := 1 / 2
  vrate := 0
  vdepth := 0
  srate := 44100
  dur := 0
  noff := 0
  ctrl := 0
  mgain := 1
  rdelay := 0
  rdecay := 0
  cutoff := 1
  reso := 0
  oscf := 0
  envt := 0

/-- The machine right after reset (R49, R190): every value is the table's; every slot is empty; the host has done
nothing yet. -/
def State.reset : State where
  params := Params.reset
  osc := RenderState.fresh Config.machine
  oscout := 0
  envout := 0
  status := 0
  clipcnt := 0
  slots := []
  inbox := []
  outbox := []

end Sys2Proof.Machine
end

