-- ==== Sys2Proof/Machine/Flags.lean ====
section
/-! DEFINITION. The status word and its fields, the error classes and cause codes, the quantiser and its clipping
record (spec/10_state.md R39, R41; spec/20_memory.md R56; spec/60_exceptions.md R170 to R172). -/

namespace Sys2Proof.Machine

/-- A status word (R39): `CAUSE` in bits 15:8, `CLIP` in bit 3, `ERR` in bits 2:0, the reserved bits 0. -/
def statusWord (err : BitVec 3) (clip : Bool) (cause : Byte) : Word :=
  (0 : BitVec 16) ++ cause ++ (0 : BitVec 4) ++ BitVec.ofBool clip ++ err

/-- `STATUS.ERR`, bits 2:0 (R39). -/
def errField (w : Word) : BitVec 3 := w.extractLsb' 0 3
/-- `STATUS.CLIP`, bit 3 (R39). -/
def clipField (w : Word) : Bool := w.getLsbD 3
/-- `STATUS.CAUSE`, bits 15:8 (R39). -/
def causeField (w : Word) : Byte := w.extractLsb' 8 8

/-- The class of a cause as `STATUS.ERR` holds it (R170, R172): 1 `ConfigError`, 2 `ResourceError`, 3
`IllegalCommand`. -/
def errClass : Cause → BitVec 3
  | .resource => 2
  | .illegal _ => 3
  | .sampleRate | .duration | .pulseWidth | .bufferCap | .waveform | .amplitude | .envelope | .noteOff | .emptyMix
  | .delay | .cutoff | .envTime | .loadImage => 1

/-- The cause code (R172). -/
def causeCode : Cause → Byte
  | .sampleRate => 1
  | .duration => 2
  | .pulseWidth => 3
  | .bufferCap => 4
  | .waveform => 5
  | .amplitude => 6
  | .envelope => 7
  | .noteOff => 8
  | .emptyMix => 9
  | .delay => 10
  | .cutoff => 11
  | .envTime => 12
  | .loadImage => 13
  | .resource => 32
  | .illegal .reservedOpcode => 48
  | .illegal .unusedField => 49
  | .illegal .mixRange => 50

/-- What `STATUS` becomes when cause `e` is raised (R176). -/
def errorStatus (e : Cause) : Word := statusWord (errClass e) false (causeCode e)

/-- `CTRL.NOFF_EN`, bit 0 of `CTRL` (R42). -/
def Params.noffEn (p : Params) : Bool := p.ctrl.getLsbD 0

/-- The clipping record of one command: its local flag `clipped`, and `CLIPCNT` as counted so far (R56). -/
structure Tally where
  clipped : Bool
  count   : Word
deriving DecidableEq, Repr

/-- The record at the start of a command (R56): nothing clipped yet. -/
def Tally.start (s : State) : Tally := { clipped := false, count := s.clipcnt }

/-- `min(n + 1, 2^32 - 1)` (R41, R56). -/
def satSucc (n : Word) : Word := if n = BitVec.allOnes 32 then n else n + 1

/-- One clipping event (R56). -/
def Tally.event (q : Tally) : Tally := { clipped := true, count := satSucc q.count }

/-- The values the quantiser clips (R56): outside `[-32767, 32767]`. -/
def overRange (v : Num) : Bool := decide (32767 < v) || decide (v < -32767)

/-- The sample the quantiser returns (R56): clip, then truncate toward zero. -/
def quantise (v : Num) : Int := truncNum (clipNum v)

/-- `Q16(v)` (R56): the sample, and the record with one event more when `v` is clipped. -/
def q16 (v : Num) (q : Tally) : Int × Tally := (quantise v, if overRange v then q.event else q)

end Sys2Proof.Machine
end

