-- ==== Sys2Proof/Machine/Ops.lean ====
section
/-! DEFINITION. The operations every command shares: the loop, buffer memory, the checks, error entry and completion
(spec/00_scope.md section 5; spec/20_memory.md R50 to R53; spec/60_exceptions.md R175 to R177). -/

namespace Sys2Proof.Machine

/-- `for i in 0 .. n-1` (spec/00_scope.md section 5): the body runs with `i = 0, 1, ..., n-1` in that order. -/
def forRange {σ : Type} (n : Nat) (body : Nat → σ → σ) (a : σ) : σ :=
  match n with
  | 0 => a
  | k + 1 => body k (forRange k body a)

/-! ### Buffer memory -/

/-- The contents of slot `k`; a slot not listed is empty. -/
def Memory.get (m : Memory) (k : Nat) : Buffer :=
  match m with
  | [] => []
  | (j, b) :: rest => if j = k then b else Memory.get rest k

/-- Slot `k` replaced whole by `b` (R52), in canonical form. -/
def Memory.set (m : Memory) (k : Nat) (b : Buffer) : Memory :=
  match m with
  | [] => if b.isEmpty then [] else [(k, b)]
  | (j, x) :: rest =>
    if k < j then (if b.isEmpty then (j, x) :: rest else (k, b) :: (j, x) :: rest)
    else if k = j then (if b.isEmpty then rest else (k, b) :: rest)
    else (j, x) :: Memory.set rest k b

/-- The canonical form of buffer memory: slot numbers below `NBUF` and strictly rising, no empty entry. -/
def Memory.wf (m : Memory) : Bool :=
  decide ((m.map Prod.fst).Pairwise (· < ·)) && m.all fun e => decide (e.1 < slotCount) && !e.2.isEmpty

/-- The samples of slot `k`. -/
def slotBuf (s : State) (k : Nat) : Buffer := Memory.get s.slots k

/-- `BufLen(k)` (R50). -/
def bufLen (s : State) (k : Nat) : Nat := (slotBuf s k).length

/-- `BufRead(k, i)` (spec/00_scope.md section 5), used only for `i < BufLen(k)` (R58). -/
def bufRead (s : State) (k i : Nat) : Int := (slotBuf s k).getD i 0

/-- `BufWrite(k, L)` (R52). -/
def bufWrite (k : Nat) (l : Buffer) (s : State) : State := { s with slots := Memory.set s.slots k l }

/-! ### Byte order (R53) -/

/-- The two bytes of a sample: bits 7:0, then bits 15:8, of its 16-bit two's-complement encoding (R53). -/
def sampleBytes (x : Int) : List Byte :=
  [(BitVec.ofInt 16 x).extractLsb' 0 8, (BitVec.ofInt 16 x).extractLsb' 8 8]

/-- The byte view of a buffer (R53). -/
def bufferBytes (l : Buffer) : List Byte := l.flatMap sampleBytes

/-- `MemRead((k, a), n)` (R53): bytes `a` to `a + n - 1` of the byte view of slot `k`. -/
def memRead (s : State) (k a n : Nat) : List Byte := ((bufferBytes (slotBuf s k)).drop a).take n

/-- The samples of a little-endian byte image (R53, R164); `none` when its length is odd. -/
def samplesOfBytes : List Byte → Option Buffer
  | [] => some []
  | [_] => none
  | lo :: hi :: rest => (samplesOfBytes rest).map ((hi ++ lo : BitVec 16).toInt :: ·)

/-! ### Errors and completion -/

/-- The first cause whose condition holds (R175). -/
def firstCause : List (Bool × Cause) → Option Cause
  | [] => none
  | (holds, e) :: rest => if holds then some e else firstCause rest

/-- `raise E(c)` (R176): `STATUS` records the error; nothing else changes. PASC's only exception entry: there is no
handler to enter and nothing to return from (R178). -/
def raise (e : Cause) (s : State) : State := { s with status := errorStatus e }

/-- Successful completion (R177): `ERR = 0`, `CAUSE = 0`, `CLIP` as the command clipped. -/
def finish (clipped : Bool) (s : State) : State := { s with status := statusWord 0 clipped 0 }

/-- The end of a command that stores a buffer through the quantiser: the one `BufWrite`, the counter, `STATUS`
(R56, R64, R177). -/
def storeResult (dst : Field8) (out : Buffer) (q : Tally) (s : State) : State :=
  finish q.clipped (bufWrite dst.toNat out { s with clipcnt := q.count })

/-- The output list under construction, with the clipping record (R45, R56). -/
structure Stream where
  out : Buffer
  q   : Tally
deriving DecidableEq, Repr

/-- The empty output list, at the start of a command. -/
def Stream.start (s : State) : Stream := { out := [], q := Tally.start s }

/-- `append x to out`. -/
def Stream.copy (x : Int) (o : Stream) : Stream := { o with out := o.out ++ [x] }

/-- `append Q16(v) to out`. -/
def Stream.push (v : Num) (o : Stream) : Stream := { out := o.out ++ [(q16 v o.q).1], q := (q16 v o.q).2 }

end Sys2Proof.Machine
end

