-- ==== Sys2Proof/Machine/Operands.lean ====
section
/-! DEFINITION. The operands: register numbers, access rights and types (spec/10_state.md R20), the host's read and
write of one register, the source slots of `MIX` (spec/30_encoding.md R71), the waveform codes (R75). -/

namespace Sys2Proof.Machine

/-- The number of a register (R20). -/
def regNumber : Reg → Fin 32
  | .wave => 0 | .freq => 1 | .amp => 2 | .atk => 3 | .dcy => 4 | .sus => 5 | .rel => 6 | .detune => 7
  | .pw => 8 | .vrate => 9 | .vdepth => 10 | .srate => 11 | .dur => 12 | .noff => 13 | .ctrl => 14 | .mgain => 15
  | .rdelay => 16 | .rdecay => 17 | .cutoff => 18 | .reso => 19 | .oscf => 20 | .oscout => 21 | .envt => 22
  | .envout => 23 | .phase => 24 | .lfsr => 25 | .nhold => 26 | .status => 27 | .clipcnt => 28 | .cmd => 29

/-- The thirty defined registers (R20). -/
def allRegs : List Reg :=
  [.wave, .freq, .amp, .atk, .dcy, .sus, .rel, .detune, .pw, .vrate, .vdepth, .srate, .dur, .noff, .ctrl, .mgain]
    ++ [.rdelay, .rdecay, .cutoff, .reso, .oscf, .oscout, .envt, .envout, .phase, .lfsr, .nhold, .status, .clipcnt,
      .cmd]

/-- The register with a number; none for the reserved numbers 30 and 31 (R20). -/
def regOfNumber (n : Fin 32) : Option Reg := allRegs.find? fun r => regNumber r == n

/-- Whether the host may write a register (R20). -/
def hostWritable : Reg → Bool
  | .oscout | .envout | .phase | .lfsr | .nhold | .status | .clipcnt => false
  | .wave | .freq | .amp | .atk | .dcy | .sus | .rel | .detune | .pw | .vrate | .vdepth | .srate | .dur | .noff
  | .ctrl | .mgain | .rdelay | .rdecay | .cutoff | .reso | .oscf | .envt | .cmd => true

/-- The bits of `CTRL` a write keeps (R42): bit 0. -/
def ctrlMask : Word := 1

/-- A write of a parameter register (R161): the value as given, but for `CTRL`'s reserved bits (R42). `none` where
the host has no such move. -/
def writeParam (r : Reg) (v : Value) (p : Params) : Option Params :=
  match r, v with
  | .wave, .word w => some { p with wave := w }
  | .freq, .num x => some { p with freq := x }
  | .amp, .num x => some { p with amp := x }
  | .atk, .num x => some { p with atk := x }
  | .dcy, .num x => some { p with dcy := x }
  | .sus, .num x => some { p with sus := x }
  | .rel, .num x => some { p with rel := x }
  | .detune, .num x => some { p with detune := x }
  | .pw, .num x => some { p with pw := x }
  | .vrate, .num x => some { p with vrate := x }
  | .vdepth, .num x => some { p with vdepth := x }
  | .srate, .num x => some { p with srate := x }
  | .dur, .num x => some { p with dur := x }
  | .noff, .num x => some { p with noff := x }
  | .ctrl, .word w => some { p with ctrl := w &&& ctrlMask }
  | .mgain, .num x => some { p with mgain := x }
  | .rdelay, .num x => some { p with rdelay := x }
  | .rdecay, .num x => some { p with rdecay := x }
  | .cutoff, .num x => some { p with cutoff := x }
  | .reso, .num x => some { p with reso := x }
  | .oscf, .num x => some { p with oscf := x }
  | .envt, .num x => some { p with envt := x }
  | _, _ => none

/-- The value of a register (R162); `CMD` holds none (R43). `LFSR` reads with bits 31:16 zero (R37). -/
def readReg (r : Reg) (s : State) : Option Value :=
  match r with
  | .wave => some (.word s.params.wave)
  | .freq => some (.num s.params.freq)
  | .amp => some (.num s.params.amp)
  | .atk => some (.num s.params.atk)
  | .dcy => some (.num s.params.dcy)
  | .sus => some (.num s.params.sus)
  | .rel => some (.num s.params.rel)
  | .detune => some (.num s.params.detune)
  | .pw => some (.num s.params.pw)
  | .vrate => some (.num s.params.vrate)
  | .vdepth => some (.num s.params.vdepth)
  | .srate => some (.num s.params.srate)
  | .dur => some (.num s.params.dur)
  | .noff => some (.num s.params.noff)
  | .ctrl => some (.word s.params.ctrl)
  | .mgain => some (.num s.params.mgain)
  | .rdelay => some (.num s.params.rdelay)
  | .rdecay => some (.num s.params.rdecay)
  | .cutoff => some (.num s.params.cutoff)
  | .reso => some (.num s.params.reso)
  | .oscf => some (.num s.params.oscf)
  | .oscout => some (.num s.oscout)
  | .envt => some (.num s.params.envt)
  | .envout => some (.num s.envout)
  | .phase => some (.num s.osc.phase)
  | .lfsr => some (.word (s.osc.lfsr.setWidth 32))
  | .nhold => some (.num s.osc.nhold)
  | .status => some (.word s.status)
  | .clipcnt => some (.word s.clipcnt)
  | .cmd => none

/-- The `k`-th source slot of `MIX`: `SRC + k`, without wrap-around (R71). -/
def mixSource (src : Field8) (k : Nat) : Nat := src.toNat + k

/-- The generator a value of `WAVE` selects (R75); none above 5. -/
def waveformOf (w : Word) : Option Waveform :=
  match w.toNat with
  | 0 => some .sine
  | 1 => some .square
  | 2 => some .pulse
  | 3 => some .sawtooth
  | 4 => some .triangle
  | 5 => some .noise
  | _ => none

end Sys2Proof.Machine
end

