-- ==== Sys2Proof/Machine/LowPass.lean ====
section
/-! DEFINITION. The resonant low-pass filter: `LOWPASS` (spec/45_lowpass.md). -/

namespace Sys2Proof.Machine

/-- The checks of `LOWPASS` (R150, R152). -/
def lowpassChecks (p : Params) : List (Bool × Cause) :=
  [ (decide (p.cutoff < 0) || decide (1 < p.cutoff), .cutoff) ]

/-- `fb = x[RESO] + x[RESO] / (1 - c + LPF_EPS)` (R151). -/
def lowpassFeedback (c : Config) (p : Params) : Num := p.reso + p.reso / (1 - p.cutoff + c.lpfEps)

/-- What the loop of `LOWPASS` carries from sample to sample: the running states, exact and unclipped (R153), and the
output list. -/
structure FilterLoop where
  b0     : Num
  b1     : Num
  stream : Stream
deriving DecidableEq, Repr

/-- `b0` after the sample `x` (R150, R154): from the old `b0` and the old `b1`. -/
def filterB0 (cutoff fb x b0 b1 : Num) : Num := b0 + cutoff * (x - b0 + fb * (b0 - b1))

/-- `b1` after the same sample (R150, R154): from the new `b0` and the old `b1`. -/
def filterB1 (cutoff b0' b1 : Num) : Num := b1 + cutoff * (b0' - b1)

/-- One pass of the loop of `LOWPASS` (R150). -/
def filterSample (cutoff fb : Num) (input : Buffer) (i : Nat) (v : FilterLoop) : FilterLoop :=
  let b0' := filterB0 cutoff fb (input.getD i 0 : Num) v.b0 v.b1
  let b1' := filterB1 cutoff b0' v.b1
  { b0 := b0', b1 := b1', stream := v.stream.push b1' }

/-- `LOWPASS` (R150) under a configuration. -/
def runLowpass (c : Config) (dst src : Field8) (s : State) : State :=
  match firstCause (lowpassChecks s.params) with
  | some e => raise e s
  | none =>
    let v := forRange (bufLen s src.toNat)
      (filterSample s.params.cutoff (lowpassFeedback c s.params) (slotBuf s src.toNat))
      { b0 := 0, b1 := 0, stream := Stream.start s }
    storeResult dst v.stream.out v.stream.q s

/-- `LOWPASS` (R150). -/
def execLowpass (dst src : Field8) (s : State) : Host.Outcome State Fault Refusal :=
  .next (runLowpass Config.machine dst src s)

end Sys2Proof.Machine
end

