-- ==== Sys2Proof/Machine/Mixer.lean ====
section
/-! DEFINITION. The voice mixer: `MIX` (spec/43_mixer.md). -/

namespace Sys2Proof.Machine

/-- `L`, the greatest length among the sources (R131). -/
def mixLength (src cnt : Field8) (s : State) : Nat :=
  forRange cnt.toNat (fun k m => max m (bufLen s (mixSource src k))) 0

/-- The sum of the sources at index `i`: a source shorter than that adds nothing (R132, R133). -/
def mixSum (src cnt : Field8) (s : State) (i : Nat) : Int :=
  forRange cnt.toNat
    (fun k sum => if i < bufLen s (mixSource src k) then sum + bufRead s (mixSource src k) i else sum) 0

/-- The unquantised sample `i` (R130, R133). -/
def mixValue (src cnt : Field8) (s : State) (i : Nat) : Num :=
  (mixSum src cnt s i : Num) * s.params.mgain / (cnt.toNat : Num)

/-- The checks of `MIX`, in order (R130). -/
def mixChecks (c : Config) (src cnt : Field8) (s : State) : List (Bool × Cause) :=
  [ (decide (slotCount < src.toNat + cnt.toNat), .illegal .mixRange),
    (decide (cnt = 0), .emptyMix),
    (decide (c.resCap < cnt.toNat * mixLength src cnt s), .resource) ]

/-- `MIX` (R130) under a configuration. -/
def runMix (c : Config) (dst src cnt : Field8) (s : State) : State :=
  match firstCause (mixChecks c src cnt s) with
  | some e => raise e s
  | none =>
    let o := forRange (mixLength src cnt s) (fun i o => o.push (mixValue src cnt s i)) (Stream.start s)
    storeResult dst o.out o.q s

/-- `MIX` (R130). -/
def execMix (dst src cnt : Field8) (s : State) : Host.Outcome State Fault Refusal :=
  .next (runMix Config.machine dst src cnt s)

end Sys2Proof.Machine
end

