-- ==== Sys2Proof/Machine/Reverb.lean ====
section
/-! DEFINITION. The comb-filter reverb: `REVERB` (spec/44_reverb.md). -/

namespace Sys2Proof.Machine

/-- `d = ROUND(x[RDELAY] * x[SRATE] / 1000)` (R141). -/
def reverbDelay (c : Config) (p : Params) : Int := c.round (p.rdelay * p.srate / 1000)

/-- The checks of `REVERB`, in order (R140). -/
def reverbChecks (c : Config) (p : Params) : List (Bool × Cause) :=
  [ (decide (p.srate ≤ 0), .sampleRate), (decide (reverbDelay c p < 1), .delay) ]

/-- One pass of the loop of `REVERB` with a delay of `d` samples (R140): the tap reads the output list under
construction (R142); before it there is a passthrough (R143). -/
def reverbSample (d : Nat) (decay : Num) (input : Buffer) (i : Nat) (o : Stream) : Stream :=
  if i < d then o.copy (input.getD i 0)
  else o.push ((input.getD i 0 : Num) + decay * (o.out.getD (i - d) 0 : Num))

/-- `REVERB` (R140) under a configuration. -/
def runReverb (c : Config) (dst src : Field8) (s : State) : State :=
  match firstCause (reverbChecks c s.params) with
  | some e => raise e s
  | none =>
    let o := forRange (bufLen s src.toNat)
      (reverbSample (reverbDelay c s.params).toNat s.params.rdecay (slotBuf s src.toNat)) (Stream.start s)
    storeResult dst o.out o.q s

/-- `REVERB` (R140). -/
def execReverb (dst src : Field8) (s : State) : Host.Outcome State Fault Refusal :=
  .next (runReverb Config.machine dst src s)

end Sys2Proof.Machine
end

