-- ==== Sys2Proof/Machine/System.lean ====
section
/-! DEFINITION. `NOP` (spec/46_system.md R160). -/

namespace Sys2Proof.Machine

/-- `NOP` (R160): nothing but the completion of R177, which clears `STATUS`. -/
def execNop (s : State) : Host.Outcome State Fault Refusal := .next (finish false s)

end Sys2Proof.Machine
end

