-- ==== Sys2Proof/Machine/Envelope.lean ====
section
/-! DEFINITION. The ADSR envelope shaper: `ENVEVAL`, the parameter check and the envelope function (spec/41_envelope.md). -/

namespace Sys2Proof.Machine

/-- `EnvCheck()` (R111). -/
def envChecks (p : Params) : List (Bool × Cause) :=
  [ (decide (p.atk < 0) || decide (p.dcy < 0) || decide (p.rel < 0) || decide (p.sus < 0) || decide (1 < p.sus),
      .envelope),
    (p.noffEn && decide (p.noff < 0), .noteOff) ]

/-- `Ads(t)` (R112): attack, decay, sustain. -/
def ads (p : Params) (t : Num) : Num :=
  if t < p.atk then t / p.atk
  else if t < p.atk + p.dcy then 1 - (1 - p.sus) * (t - p.atk) / p.dcy
  else p.sus

/-- `Env(t)` (R113): the envelope with release. -/
def env (p : Params) (t : Num) : Num :=
  if p.noffEn = true ∧ p.noff ≤ t then
    if p.rel ≤ t - p.noff then 0 else ads p p.noff * (1 - (t - p.noff) / p.rel)
  else ads p t

/-- The checks of `ENVEVAL`, in order (R110). -/
def envevalChecks (p : Params) : List (Bool × Cause) := envChecks p ++ [(decide (p.envt < 0), .envTime)]

/-- `ENVEVAL` (R110). It uses no parameter of the configuration. -/
def execEnveval (s : State) : Host.Outcome State Fault Refusal :=
  match firstCause (envevalChecks s.params) with
  | some e => .next (raise e s)
  | none => .next (finish false { s with envout := env s.params s.params.envt })

end Sys2Proof.Machine
end

