-- ==== Sys2Proof/Machine/Oscillator.lean ====
section
/-! DEFINITION. The oscillator engine: `OSCINIT`, `OSCSTEP`, the six generators, the phase accumulator, the noise register
(spec/40_oscillator.md). -/

namespace Sys2Proof.Machine

/-- `Gen(w, p)` (R93 to R98), with the two registers it may read: `PW` and `NHOLD`. -/
def gen (c : Config) (w : Waveform) (pw nhold p : Num) : Num :=
  match w with
  | .sine => c.sin p
  | .square => if p < 1 / 2 then 1 else -1
  | .pulse => if p < pw then 1 else -1
  | .sawtooth => 2 * p - 1
  | .triangle => if p < 1 / 2 then 4 * p - 1 else 3 - 4 * p
  | .noise => nhold

/-- Bit `i` of the shift register, in bit 0. -/
def lfsrBit (l : BitVec 16) (i : Nat) : BitVec 16 := (l >>> i) &&& 1

/-- `LfsrNext(l)` (R101). -/
def lfsrNext (l : BitVec 16) : BitVec 16 :=
  (l >>> 1) ||| ((lfsrBit l 0 ^^^ lfsrBit l 2 ^^^ lfsrBit l 3 ^^^ lfsrBit l 5) <<< 15)

/-- `NoiseMap(l) = l / 32768 - 1` (R102). -/
def noiseMap (l : BitVec 16) : Num := (l.toNat : Num) / 32768 - 1

/-- The phase before wrapping: `q = p + abs(f) / x[SRATE]` (R92, R99). -/
def phaseAdvance (srate f phase : Num) : Num := phase + absNum f / srate

/-- The render state after one call of `OscSample(f)` (R92, R99, R100). -/
def oscAdvance (w : Waveform) (srate f : Num) (r : RenderState) : RenderState :=
  let q := phaseAdvance srate f r.phase
  if w = .noise ∧ 1 ≤ q then
    { phase := fracNum q, lfsr := lfsrNext r.lfsr, nhold := noiseMap (lfsrNext r.lfsr) }
  else { r with phase := fracNum q }

/-- The sample `OscSample(f)` returns (R92): from the phase before the advance. -/
def oscOutput (c : Config) (w : Waveform) (pw : Num) (r : RenderState) : Num := gen c w pw r.nhold r.phase

/-- The checks of `OSCSTEP`, in order (R91). -/
def oscstepChecks (p : Params) : List (Bool × Cause) :=
  [ (decide (p.srate ≤ 0), .sampleRate),
    (decide (p.pw ≤ 0) || decide (1 ≤ p.pw), .pulseWidth),
    (decide (5 < p.wave.toNat), .waveform) ]

/-- `OSCSTEP` (R91) under a configuration. The arm with no waveform is not reached: the third check has excluded it. -/
def runOscstep (c : Config) (s : State) : State :=
  match firstCause (oscstepChecks s.params), waveformOf s.params.wave with
  | some e, _ => raise e s
  | none, none => raise .waveform s
  | none, some w =>
    finish false
      { s with
        oscout := oscOutput c w s.params.pw s.osc
        osc := oscAdvance w s.params.srate s.params.oscf s.osc }

/-- `OSCINIT` (R90): the render state is made fresh. -/
def execOscinit (s : State) : Host.Outcome State Fault Refusal :=
  .next (finish false { s with osc := RenderState.fresh Config.machine })

/-- `OSCSTEP` (R91). -/
def execOscstep (s : State) : Host.Outcome State Fault Refusal := .next (runOscstep Config.machine s)

end Sys2Proof.Machine
end

