-- ==== Sys2Proof/Machine/Voice.lean ====
section
/-! DEFINITION. The voice sequencer: `RENDER` (spec/42_voice.md). -/

namespace Sys2Proof.Machine

/-- `VoiceFreq(t)` (R122). -/
def voiceFreq (c : Config) (p : Params) (t : Num) : Num :=
  let f := p.freq * c.pow2c p.detune
  if p.vrate ≠ 0 ∧ p.vdepth ≠ 0 then f * c.pow2c (p.vdepth * c.sin (fracNum (p.vrate * t))) else f

/-- `N = floor(x[DUR] * x[SRATE])` (R124). -/
def renderLength (p : Params) : Int := floorNum (p.dur * p.srate)

/-- The checks of `RENDER`, in order (R120). -/
def renderChecks (c : Config) (p : Params) : List (Bool × Cause) :=
  [ (decide (p.srate ≤ 0), .sampleRate),
    (decide (p.dur < 0), .duration),
    (decide (p.pw ≤ 0) || decide (1 ≤ p.pw), .pulseWidth),
    (decide ((c.bufCap : Int) < renderLength p), .bufferCap),
    (decide (5 < p.wave.toNat), .waveform),
    (decide (p.amp < 0) || decide (1 < p.amp), .amplitude) ] ++ envChecks p

/-- What the sample loop of `RENDER` carries from sample to sample (R45, R121). -/
structure VoiceLoop where
  osc    : RenderState
  stream : Stream
deriving DecidableEq, Repr

/-- The time of sample `i`, in seconds since note-on (R120). -/
def sampleTime (p : Params) (i : Nat) : Num := (i : Num) / p.srate

/-- The unquantised value of sample `i` (R120, R125), drawn from the render state before it. -/
def voiceValue (c : Config) (w : Waveform) (p : Params) (i : Nat) (r : RenderState) : Num :=
  oscOutput c w p.pw r * env p (sampleTime p i) * p.amp * 32767

/-- One pass of the sample loop of `RENDER` (R120). -/
def voiceSample (c : Config) (w : Waveform) (p : Params) (i : Nat) (v : VoiceLoop) : VoiceLoop where
  osc := oscAdvance w p.srate (voiceFreq c p (sampleTime p i)) v.osc
  stream := v.stream.push (voiceValue c w p i v.osc)

/-- `RENDER` (R120) under a configuration: from the fresh render state (R121). The arm with no waveform is not
reached: the fifth check has excluded it. -/
def runRender (c : Config) (dst : Field8) (s : State) : State :=
  match firstCause (renderChecks c s.params), waveformOf s.params.wave with
  | some e, _ => raise e s
  | none, none => raise .waveform s
  | none, some w =>
    let v := forRange (renderLength s.params).toNat (voiceSample c w s.params)
      { osc := RenderState.fresh c, stream := Stream.start s }
    storeResult dst v.stream.out v.stream.q { s with osc := v.osc }

/-- `RENDER` (R120). -/
def execRender (dst : Field8) (s : State) : Host.Outcome State Fault Refusal := .next (runRender Config.machine dst s)

end Sys2Proof.Machine
end

