-- ==== Sys2Proof/Machine/Dispatch.lean ====
section
/-! DEFINITION. One arm per command of PASC (spec/30_encoding.md R72). -/

namespace Sys2Proof.Machine

def exec (i : Instr) (s : State) : Host.Outcome State Fault Refusal :=
  match i with
  | .nop => Sys2Proof.Machine.execNop s
  | .oscinit => Sys2Proof.Machine.execOscinit s
  | .oscstep => Sys2Proof.Machine.execOscstep s
  | .enveval => Sys2Proof.Machine.execEnveval s
  | .render dst => Sys2Proof.Machine.execRender dst s
  | .mix dst src cnt => Sys2Proof.Machine.execMix dst src cnt s
  | .reverb dst src => Sys2Proof.Machine.execReverb dst src s
  | .lowpass dst src => Sys2Proof.Machine.execLowpass dst src s

end Sys2Proof.Machine
end

