-- ==== Sys2Proof/Machine/Host.lean ====
section
/-! DEFINITION. The issue of a command word and the host transactions `WR`, `RD`, `READ`, `LOAD`, the reset event
(spec/10_state.md R43, R46; spec/46_system.md R161 to R164; spec/70_reset_and_hazards.md R190), and the assembler's
pseudo-instructions (spec/30_encoding.md R77). -/

namespace Sys2Proof.Machine

/-- A write of `w` to `CMD` (R43): the word is decoded and its command runs to completion; a word that encodes no
command raises `IllegalCommand` (R73, R176). -/
def issueCommand (w : Word) (s : State) : Host.Outcome State Fault Refusal :=
  match decode w with
  | .ok i => exec i s
  | .error k => .next (raise (.illegal k) s)

/-- `WR <REG>, <value>` (R161, R46). -/
def hostWrite (n : Fin 32) (v : Value) (s : State) : Host.Outcome State Fault Refusal :=
  match regOfNumber n, v with
  | none, _ => .refused (.reservedRegister n)
  | some .cmd, .word w => issueCommand w s
  | some r, v =>
    match writeParam r v s.params with
    | some p => .next { s with params := p }
    | none => .refused (if hostWritable r then .wrongValueType r else .writeToReadOnly r)

/-- What a host transaction returns (R162, R163). -/
def reply (r : Reply) (s : State) : State := { s with outbox := s.outbox ++ [r] }

/-- `RD <REG>` (R162, R46). -/
def hostRead (n : Fin 32) (s : State) : Host.Outcome State Fault Refusal :=
  match regOfNumber n with
  | none => .refused (.reservedRegister n)
  | some r =>
    match readReg r s with
    | some v => .next (reply (.value v) s)
    | none => .refused (.readOfWriteOnly r)

/-- `READ s<k>` (R163): the list of samples, or its byte view. -/
def hostReadSlot (k : Field8) (form : ImageForm) (s : State) : Host.Outcome State Fault Refusal :=
  match form with
  | .samples => .next (reply (.samples (slotBuf s k.toNat)) s)
  | .bytes => .next (reply (.bytes (memRead s k.toNat 0 (2 * bufLen s k.toNat))) s)

/-- The samples of what the host gives `LOAD`; none for an odd number of bytes (R164). -/
def imageSamples : Image → Option Buffer
  | .samples l => some (l.map BitVec.toInt)
  | .bytes l => samplesOfBytes l

/-- `LOAD` (R164) under a configuration. A successful one leaves `STATUS`. -/
def runLoad (c : Config) (k : Field8) (image : Image) (s : State) : State :=
  match imageSamples image with
  | none => raise .loadImage s
  | some l => if c.bufCap < l.length ∨ -32768 ∈ l then raise .loadImage s else bufWrite k.toNat l s

/-- `LOAD s<k>, image` (R164). -/
def hostLoad (k : Field8) (image : Image) (s : State) : Host.Outcome State Fault Refusal :=
  .next (runLoad Config.machine k image s)

/-- The `LOAD` of `PAD` (R77, R198): the host puts `n` zeros in front of the list `l` it has read. -/
def paddedLoad (dst : Field8) (n : Nat) (l : Buffer) : HostAction :=
  .load dst (.samples (List.replicate n 0 ++ l.map (BitVec.ofInt 16)))

/-- `PAD s<dst>, s<src>, n` (R77): the host performs `READ s<src>`, and its next action is the `LOAD` of what that
returned, padded (notes/assumptions/16.md). -/
def hostPad (dst src : Field8) (n : Nat) (s : State) : Host.Outcome State Fault Refusal :=
  hostReadSlot src .samples { s with inbox := paddedLoad dst n (slotBuf s src.toNat) :: s.inbox }

/-- The reset event (R190): every register and every slot has its reset value. What the host has been given, and what
it will still do, is the host's and stays. -/
def resetEvent (s : State) : Host.Outcome State Fault Refusal :=
  .next { State.reset with inbox := s.inbox, outbox := s.outbox }

/-- One action of the host (R61, R76). -/
def perform (a : HostAction) (s : State) : Host.Outcome State Fault Refusal :=
  match a with
  | .wr n v => hostWrite n v s
  | .rd n => hostRead n s
  | .read k form => hostReadSlot k form s
  | .load k image => hostLoad k image s
  | .pad d a n => hostPad d a n s
  | .reset => resetEvent s

/-- One step of the machine: the host's next action, to completion (R4, R61). With none to come the core is idle and
waits (R191). -/
def nextAction (s : State) : Host.Outcome State Fault Refusal :=
  match s.inbox with
  | [] => .next s
  | a :: rest => perform a { s with inbox := rest }

/-- The number of `CMD`. -/
def cmdNumber : Fin 32 := regNumber .cmd

/-- The host action that issues a command word (R43). -/
def issueAction (w : Word) : HostAction := .wr cmdNumber (.word w)

/-- The state with a word of the opcode table as the host's next command. -/
def placeWord (s : State) (nbits w : Nat) : State := { s with inbox := issueAction (tableWord nbits w) :: s.inbox }

/-! ### Pseudo-instructions (R77) -/

/-- `SETENV a, d, s, r` -/
def setenvActions (a d s r : Num) : List HostAction :=
  [.wr (regNumber .atk) (.num a), .wr (regNumber .dcy) (.num d), .wr (regNumber .sus) (.num s),
    .wr (regNumber .rel) (.num r)]

/-- `NOTEOFF t` -/
def noteoffActions (t : Num) : List HostAction := [.wr (regNumber .noff) (.num t), .wr (regNumber .ctrl) (.word 1)]

/-- `NONOTEOFF` -/
def nonoteoffActions : List HostAction := [.wr (regNumber .ctrl) (.word 0)]

/-- `PAD s<d>, s<a>, n`: `hostPad` expands it into its `READ` and its `LOAD`. -/
def padActions (d a : Field8) (n : Nat) : List HostAction := [.pad d a n]

end Sys2Proof.Machine
end

