-- ==== Sys2Proof/Machine/Step.lean ====
section
/-! DEFINITION. One step of PASC: the host's next action, to completion (spec/00_scope.md R4; spec/20_memory.md R61). -/

namespace Sys2Proof.Machine

/-- One step: the host's next action. -/
def step (s : State) : Host.Outcome State Fault Refusal := nextAction s

/-- The state in which the very next step issues the command word `w` of the opcode table: PASC fetches nothing
(R40), a command comes from the host's write to `CMD` (R43), so the word is put in front of the host's actions. -/
def State.withFetchWord (s : State) (nbits w : Nat) : State := placeWord s nbits w

end Sys2Proof.Machine
end

