-- ==== Sys2Proof/Safety.lean ====
section
/-! DEFINITION. What the claims speak of: when a command is free of errors, which status words are legal, the invariant
of the machine, what one byte of a slot reads as, and when a host action has a meaning. -/

namespace Sys2Proof

/-! ### The named properties of the configuration functions -/

/-- The named properties of `SIN` (R7). -/
structure SinProperties (f : Num → Num) : Prop where
  range : ∀ x, -1 ≤ f x ∧ f x ≤ 1
  zero : f 0 = 0
  period : ∀ x, f x = f (Int.fract x)
  quarters : f (1 / 4) = 1 ∧ f (1 / 2) = 0 ∧ f (3 / 4) = -1
  twelfths : f (1 / 12) = 1 / 2 ∧ f (5 / 12) = 1 / 2 ∧ f (7 / 12) = -(1 / 2) ∧ f (11 / 12) = -(1 / 2)

/-- The named properties of `POW2C` (R8). -/
structure Pow2cProperties (f : Num → Num) : Prop where
  pos : ∀ x, 0 < f x
  octave : ∀ k : Int, f (1200 * k) = (2 : Num) ^ k

end Sys2Proof

namespace Sys2Proof.Machine

/-! ### When a command succeeds: none of the conditions of R172 that it can raise holds -/

/-- `OSCSTEP` (R91). -/
structure OscstepLegal (p : Params) : Prop where
  srate : 0 < p.srate
  pw : 0 < p.pw ∧ p.pw < 1
  wave : p.wave.toNat ≤ 5

/-- The envelope check (R111). -/
structure EnvLegal (p : Params) : Prop where
  atk : 0 ≤ p.atk
  dcy : 0 ≤ p.dcy
  rel : 0 ≤ p.rel
  sus : 0 ≤ p.sus ∧ p.sus ≤ 1
  noff : p.noffEn = true → 0 ≤ p.noff

/-- `ENVEVAL` (R110). -/
structure EnvevalLegal (p : Params) : Prop where
  env : EnvLegal p
  envt : 0 ≤ p.envt

/-- `RENDER` (R120). -/
structure RenderLegal (c : Config) (p : Params) : Prop where
  srate : 0 < p.srate
  dur : 0 ≤ p.dur
  pw : 0 < p.pw ∧ p.pw < 1
  length : ⌊p.dur * p.srate⌋ ≤ (c.bufCap : Int)
  wave : p.wave.toNat ≤ 5
  amp : 0 ≤ p.amp ∧ p.amp ≤ 1
  env : EnvLegal p

/-- `MIX` (R130): `L`, the greatest length among the sources, is given by what it is. -/
structure MixLegal (c : Config) (src cnt : Field8) (s : State) : Prop where
  range : src.toNat + cnt.toNat ≤ slotCount
  count : cnt ≠ 0
  work : ∀ k, k < cnt.toNat → cnt.toNat * bufLen s (src.toNat + k) ≤ c.resCap

/-- `REVERB` (R140). -/
structure ReverbLegal (c : Config) (p : Params) : Prop where
  srate : 0 < p.srate
  delay : 1 ≤ c.round (p.rdelay * p.srate / 1000)

/-- `LOWPASS` (R150). -/
structure LowpassLegal (p : Params) : Prop where
  cutoff : 0 ≤ p.cutoff ∧ p.cutoff ≤ 1

/-! ### Samples, bytes, slots -/

/-- A sample (R10, R50): an integer in `[-32767, 32767]`. -/
def IsSample (x : Int) : Prop := -(sampleMax : Int) ≤ x ∧ x ≤ (sampleMax : Int)

/-- Byte `a` of the byte view of slot `k` (R53), none past its end. -/
def readByte (s : State) (k a : Nat) : Option Byte := (memRead s k a 1).head?

/-- The slot a command stores to (R51): its `DST`. -/
def storeSlot : Instr → Option Nat
  | .nop | .oscinit | .oscstep | .enveval => none
  | .render d => some d.toNat
  | .mix d _ _ => some d.toNat
  | .reverb d _ => some d.toNat
  | .lowpass d _ => some d.toNat

/-! ### The invariant -/

/-- A status word some command can leave (R39, R172, R175): reserved bits 0; `ERR` at most 3; `CLIP` only without an
error; the cause codes of each class. -/
structure LegalStatus (w : Word) : Prop where
  reserved : w &&& 0xFFFF00F0 = 0
  clip : clipField w = true → errField w = 0
  none : errField w = 0 → causeField w = 0
  config : errField w = 1 → 1 ≤ (causeField w).toNat ∧ (causeField w).toNat ≤ 13
  resource : errField w = 2 → (causeField w).toNat = 32
  illegal : errField w = 3 → 48 ≤ (causeField w).toNat ∧ (causeField w).toNat ≤ 50
  classes : (errField w).toNat ≤ 3

/-- What every reachable state satisfies. -/
structure Inv (s : State) : Prop where
  /-- buffer memory is in canonical form -/
  canonical : Memory.wf s.slots = true
  /-- every sample of every slot lies in `[-32767, 32767]` (R44, R57) -/
  samples : ∀ k, ∀ x ∈ slotBuf s k, IsSample x
  /-- no slot is longer than `BUF_CAP` (R50) -/
  lengths : ∀ k, bufLen s k ≤ Config.machine.bufCap
  /-- the phase is wrapped (R36) -/
  phase : 0 ≤ s.osc.phase ∧ s.osc.phase < 1
  /-- the shift register is not stuck at zero (R101) -/
  lfsr : s.osc.lfsr ≠ 0
  /-- R38 -/
  nhold : -1 ≤ s.osc.nhold ∧ s.osc.nhold ≤ 1
  /-- R34 -/
  oscout : -1 ≤ s.oscout ∧ s.oscout ≤ 1
  /-- R35 -/
  envout : 0 ≤ s.envout ∧ s.envout ≤ 1
  /-- the reserved bits of `CTRL` (R42) -/
  ctrl : s.params.ctrl &&& 0xFFFFFFFE = 0
  /-- R39 -/
  status : LegalStatus s.status

/-! ### Safe runs -/

/-- The type of a register's value (R20). -/
def rightType : Reg → Value → Bool
  | .wave, .word _ | .ctrl, .word _ | .lfsr, .word _ | .status, .word _ | .clipcnt, .word _ | .cmd, .word _ => true
  | .wave, .num _ | .ctrl, .num _ | .lfsr, .num _ | .status, .num _ | .clipcnt, .num _ | .cmd, .num _ => false
  | _, .num _ => true
  | _, .word _ => false

/-- A host action with a meaning (R20, R46, R161): the registers the host may write, each with a value of its type,
and the registers it may read. -/
def HostMove : HostAction → Prop
  | .wr n v => ∃ r, regNumber r = n ∧ hostWritable r = true ∧ rightType r v = true
  | .rd n => n.toNat ≤ 28
  | .read _ _ => True
  | .load _ _ => True
  | .pad _ _ _ => True
  | .reset => True

/-- A run is safe when every action still to come has a meaning: then no step is refused. -/
def SafeRun (s : State) : Prop := ∀ a ∈ s.inbox, HostMove a

end Sys2Proof.Machine
end

