-- ==== Sys2Proof/Certificates/Slice0/Obligations.lean ====
section
/-! DEFINITION. The statements about PASC for the provers. `Config.machine` has no body, so each holds for every
configuration of the spec. Commands of the host are `HostAction`s; a command word reaches `exec` through `issueCommand`. -/

open Sys2Proof Sys2Proof.Machine

/-! ### Encoding -/

/-- R70 to R74: no bit of an encoding is dropped, for every command and every operand. -/
def Obligations.DecodeEncodeRoundTrip : Prop :=
  ∀ i : Instr, i.wf = true → decode (encode i) = .ok i

/-- R72, R74: a word the decoder accepts is the encoding of the command it gives, and that command is well-formed. -/
def Obligations.DecodedWordIsTheEncoding : Prop :=
  ∀ (w : Word) (i : Instr), decode w = .ok i → encode i = w ∧ i.wf = true

/-- R72: the opcode map as match and mask over the 32-bit word. -/
def Obligations.DecoderFollowsTheOpcodeMap : Prop :=
  ∀ w : Word,
    (decode w = .ok .nop ↔ w &&& 0xFFFFFFFF = 0x00000000) ∧
    (decode w = .ok .oscinit ↔ w &&& 0xFFFFFFFF = 0x00000001) ∧
    (decode w = .ok .oscstep ↔ w &&& 0xFFFFFFFF = 0x00000002) ∧
    (decode w = .ok .enveval ↔ w &&& 0xFFFFFFFF = 0x00000003) ∧
    (∀ d, decode w = .ok (.render d) ↔ w &&& 0xFFFF00FF = 0x00000004 ∧ d = w.extractLsb' 8 8) ∧
    (∀ d a n, decode w = .ok (.mix d a n) ↔ w &&& 0x000000FF = 0x00000005 ∧ d = w.extractLsb' 8 8 ∧
      a = w.extractLsb' 16 8 ∧ n = w.extractLsb' 24 8 ∧ a.toNat + n.toNat ≤ 256) ∧
    (∀ d a, decode w = .ok (.reverb d a) ↔ w &&& 0xFF0000FF = 0x00000006 ∧ d = w.extractLsb' 8 8 ∧
      a = w.extractLsb' 16 8) ∧
    (∀ d a, decode w = .ok (.lowpass d a) ↔ w &&& 0xFF0000FF = 0x00000007 ∧ d = w.extractLsb' 8 8 ∧
      a = w.extractLsb' 16 8) ∧
    (8 ≤ (w &&& 0x000000FF).toNat → decode w = .error .reservedOpcode)

/-- R73, R74: a reserved opcode is reported before a non-zero unused field, that before a `MIX` that names slots that
do not exist, and a word with none of these is a command; an illegal word changes `STATUS` and nothing else. -/
def Obligations.IllegalWordsRaiseInOrder : Prop :=
  ∀ (w : Word) (s : State),
    let op := w.toNat % 2 ^ 8
    let unused := (op ≤ 3 ∧ w.toNat / 2 ^ 8 ≠ 0) ∨ (op = 4 ∧ w.toNat / 2 ^ 16 ≠ 0) ∨
      ((op = 6 ∨ op = 7) ∧ w.toNat / 2 ^ 24 ≠ 0)
    let range := op = 5 ∧ 256 < w.toNat / 2 ^ 16 % 2 ^ 8 + w.toNat / 2 ^ 24
    (8 ≤ op → issueCommand w s = .next { s with status := 0x00003003 }) ∧
    (op < 8 → unused → issueCommand w s = .next { s with status := 0x00003103 }) ∧
    (op < 8 → ¬unused → range → issueCommand w s = .next { s with status := 0x00003203 }) ∧
    (op < 8 → ¬unused → ¬range → ∃ i, decode w = .ok i ∧ issueCommand w s = exec i s)

/-- Words written out from the fields of R70 and the opcodes of R72 (spec/95_test_vectors.md V-ENC-1). -/
def Obligations.WrittenOutWordsDecode : Prop :=
  decodeTableWord 32 0x00000000 = some .nop ∧ decodeTableWord 32 0x00000001 = some .oscinit ∧
  decodeTableWord 32 0x00000002 = some .oscstep ∧ decodeTableWord 32 0x00000003 = some .enveval ∧
  decodeTableWord 32 0x0000FF04 = some (.render 255) ∧ decodeTableWord 32 0x02010405 = some (.mix 4 1 2) ∧
  decodeTableWord 32 0x00010206 = some (.reverb 2 1) ∧ decodeTableWord 32 0x00020307 = some (.lowpass 3 2) ∧
  decodeTableWord 32 0x02FF0005 = none ∧ decodeTableWord 32 0x00000100 = none ∧ decodeTableWord 32 0x00000008 = none

/-! ### The step -/

/-- R4, R61: a step is the host's next action, to completion. That the host's actions stand in a list of the state,
and that a step with none to come changes nothing, is the model's own (notes/assumptions/1.md, 2.md). -/
def Obligations.StepPerformsTheHostsNextAction : Prop :=
  (∀ (s : State) (a : HostAction) (rest : List HostAction), s.inbox = a :: rest →
    step s = perform a { s with inbox := rest }) ∧
  (∀ s : State, s.inbox = [] → step s = .next s)

/-- R43: a write of a word to `CMD` (register 29) runs the command the word encodes, and raises `IllegalCommand` when
it encodes none. The list of host actions is the model's own (notes/assumptions/1.md). -/
def Obligations.StepRunsTheDecodedCommand : Prop :=
  ∀ (s : State) (w : Word) (rest : List HostAction), s.inbox = .wr 29 (.word w) :: rest →
    (∀ i, decode w = .ok i → step s = exec i { s with inbox := rest }) ∧
    (∀ k, decode w = .error k → step s = .next { s with inbox := rest, status := errorStatus (.illegal k) })

/-- A word of the opcode table placed in front of the host's actions is the next command to run. That a program comes to
run by its words standing in a list of the state is the model's own choice (notes/assumptions/1.md); of the spec it
uses only that a write of a word to `CMD` issues a command (spec/10_state.md, section 7). -/
def Obligations.PlacedWordRunsNext : Prop :=
  ∀ (s : State) (w : Nat) (i : Instr), decodeTableWord 32 w = some i → step (s.withFetchWord 32 w) = exec i s

/-! ### Results: each command completes, with the result its rule gives -/

/-- R160: `NOP` completes in every state, changes `STATUS` (to 0) and nothing else; its only word is 0x00000000, and
every other word with its opcode raises `IllegalCommand(49)`. -/
def Obligations.NopCompletes : Prop :=
  (∀ s : State, exec .nop s = .next { s with status := 0 }) ∧
  (∀ w : Word, w.toNat % 2 ^ 8 = 0 → (decode w = .ok .nop ↔ w = 0) ∧
    (w ≠ 0 → ∀ s : State, issueCommand w s = .next { s with status := 0x00003103 }))

/-- R90: `OSCINIT` completes in every state and makes the render state fresh; issuing it twice is the same as issuing
it once; its only word is 0x00000001, and every other word with its opcode raises `IllegalCommand(49)`. -/
def Obligations.OscinitCompletes : Prop :=
  (∀ s : State, ∃ t, exec .oscinit s = .next t ∧
    t = { s with
          status := 0
          osc := { phase := 0, lfsr := Config.machine.lfsrSeed, nhold := Config.machine.noiseInit } } ∧
    exec .oscinit t = .next t) ∧
  (∀ w : Word, w.toNat % 2 ^ 8 = 1 → (decode w = .ok .oscinit ↔ w = 1) ∧
    (w ≠ 1 → ∀ s : State, issueCommand w s = .next { s with status := 0x00003103 }))

/-- R91 to R100: a legal `OSCSTEP` completes: `OSCOUT` is the generator's value at the phase before the advance, the
phase advances by `abs(OSCF) / SRATE` and wraps, the noise register is drawn exactly when `WAVE` is Noise and the
phase wraps, and nothing else changes. -/
def Obligations.OscstepCompletes : Prop :=
  ∀ s : State, OscstepLegal s.params →
    let p := s.osc.phase
    let q := p + |s.params.oscf| / s.params.srate
    ∃ t, exec .oscstep s = .next t ∧
      (s.params.wave = 0 → t.oscout = Config.machine.sin p) ∧
      (s.params.wave = 1 → t.oscout = if p < 1 / 2 then 1 else -1) ∧
      (s.params.wave = 2 → t.oscout = if p < s.params.pw then 1 else -1) ∧
      (s.params.wave = 3 → t.oscout = 2 * p - 1) ∧
      (s.params.wave = 4 → t.oscout = if p < 1 / 2 then 4 * p - 1 else 3 - 4 * p) ∧
      (s.params.wave = 5 → t.oscout = s.osc.nhold) ∧
      t.osc.phase = Int.fract q ∧
      (s.params.wave = 5 ∧ 1 ≤ q →
        t.osc.lfsr = lfsrNext s.osc.lfsr ∧ t.osc.nhold = noiseMap (lfsrNext s.osc.lfsr)) ∧
      (¬(s.params.wave = 5 ∧ 1 ≤ q) → t.osc.lfsr = s.osc.lfsr ∧ t.osc.nhold = s.osc.nhold) ∧
      t = { s with status := 0, oscout := t.oscout, osc := t.osc }

/-- R110, R112, R113: a legal `ENVEVAL` completes: `ENVOUT` is the envelope at `ENVT`, and nothing else changes. -/
def Obligations.EnvevalCompletes : Prop :=
  ∀ s : State, EnvevalLegal s.params →
    let p := s.params
    let level (t : ℚ) : ℚ :=
      if t < p.atk then t / p.atk
      else if t < p.atk + p.dcy then 1 - (1 - p.sus) * (t - p.atk) / p.dcy else p.sus
    exec .enveval s = .next
      { s with
        status := 0
        envout :=
          if p.ctrl.getLsbD 0 = true ∧ p.noff ≤ p.envt then
            (if p.rel ≤ p.envt - p.noff then 0 else level p.noff * (1 - (p.envt - p.noff) / p.rel))
          else level p.envt }

/-- R120 to R125: a legal `RENDER` completes. `N = floor(DUR * SRATE)` samples; the phase before sample `i` is the
wrapped sum of the advances before it; the shift register has then been stepped once for each advance that crossed an
integer (Noise only); sample `i` is the truncated product of generator, envelope, amplitude and 32767; no sample
clips; every other slot, register and byte is unchanged. -/
def Obligations.RenderCompletes : Prop :=
  ∀ (s : State) (d : Field8), RenderLegal Config.machine s.params → Memory.wf s.slots = true →
    let c := Config.machine
    let p := s.params
    let len : Nat := ⌊p.dur * p.srate⌋.toNat
    let time (i : Nat) : ℚ := (i : ℚ) / p.srate
    let freq (t : ℚ) : ℚ := p.freq * c.pow2c p.detune *
      (if p.vrate ≠ 0 ∧ p.vdepth ≠ 0 then c.pow2c (p.vdepth * c.sin (Int.fract (p.vrate * t))) else 1)
    let total (i : Nat) : ℚ := ∑ j ∈ Finset.range i, |freq (time j)| / p.srate
    let phase (i : Nat) : ℚ := Int.fract (total i)
    let draws (i : Nat) : Nat :=
      if p.wave = 5 then ((Finset.range i).filter fun j => ⌊total j⌋ < ⌊total (j + 1)⌋).card else 0
    let register (i : Nat) : BitVec 16 := lfsrNext^[draws i] c.lfsrSeed
    let held (i : Nat) : ℚ := if draws i = 0 then c.noiseInit else noiseMap (register i)
    let tone (i : Nat) : ℚ :=
      if p.wave = 0 then c.sin (phase i)
      else if p.wave = 1 then (if phase i < 1 / 2 then 1 else -1)
      else if p.wave = 2 then (if phase i < p.pw then 1 else -1)
      else if p.wave = 3 then 2 * phase i - 1
      else if p.wave = 4 then (if phase i < 1 / 2 then 4 * phase i - 1 else 3 - 4 * phase i)
      else held i
    let value (i : Nat) : ℚ := tone i * env p (time i) * p.amp * 32767
    ∃ t, exec (.render d) s = .next t ∧
      t = { s with
            status := 0
            osc := { phase := phase len, lfsr := register len, nhold := held len }
            slots := t.slots } ∧
      bufLen t d.toNat = len ∧
      (∀ i, i < len → |value i| ≤ 32767 ∧
        bufRead t d.toNat i = if 0 ≤ value i then ⌊value i⌋ else ⌈value i⌉) ∧
      (∀ k, k ≠ d.toNat → ∀ a, readByte t k a = readByte s k a)

/-- R130 to R134: a legal `MIX` completes. The result is as long as the longest source; sample `i` is the quantised
sum of the sources (a source shorter than that adds nothing) times `MGAIN` over `CNT`; `CLIP` and `CLIPCNT` record
the clipped samples; every other slot, register and byte is unchanged. -/
def Obligations.MixCompletes : Prop :=
  ∀ (s : State) (d a n : Field8), MixLegal Config.machine a n s → Memory.wf s.slots = true →
    let source (k i : Nat) : Int := if i < bufLen s (a.toNat + k) then bufRead s (a.toNat + k) i else 0
    let value (i : Nat) : ℚ :=
      ((∑ k ∈ Finset.range n.toNat, source k i : Int) : ℚ) * s.params.mgain / (n.toNat : ℚ)
    ∃ t len, exec (.mix d a n) s = .next t ∧
      (∀ k, k < n.toNat → bufLen s (a.toNat + k) ≤ len) ∧ (∃ k, k < n.toNat ∧ bufLen s (a.toNat + k) = len) ∧
      bufLen t d.toNat = len ∧ (∀ i, i < len → bufRead t d.toNat i = quantise (value i)) ∧
      (let clips := ((Finset.range len).filter fun i => 32767 < |value i|).card
       t = { s with
             status := if clips = 0 then 0 else 8
             clipcnt := t.clipcnt
             slots := t.slots } ∧
       t.clipcnt.toNat = min (s.clipcnt.toNat + clips) (2 ^ 32 - 1)) ∧
      (∀ k, k ≠ d.toNat → ∀ b, readByte t k b = readByte s k b)

/-- R140 to R144: a legal `REVERB` completes. The result is as long as the source; before the delay it is the source,
and from there on the quantised sum of the source and `RDECAY` times the RESULT one delay earlier; `CLIP` and
`CLIPCNT` record the clipped samples; every other slot, register and byte is unchanged. -/
def Obligations.ReverbCompletes : Prop :=
  ∀ (s : State) (d a : Field8), ReverbLegal Config.machine s.params → Memory.wf s.slots = true →
    let delay : Nat := (Config.machine.round (s.params.rdelay * s.params.srate / 1000)).toNat
    ∃ t, exec (.reverb d a) s = .next t ∧ bufLen t d.toNat = bufLen s a.toNat ∧
      (let value (i : Nat) : ℚ :=
        (bufRead s a.toNat i : ℚ) + s.params.rdecay * (bufRead t d.toNat (i - delay) : ℚ)
       (∀ i, i < bufLen s a.toNat →
        bufRead t d.toNat i = if i < delay then bufRead s a.toNat i else quantise (value i)) ∧
       (let clips := ((Finset.range (bufLen s a.toNat)).filter fun i => delay ≤ i ∧ 32767 < |value i|).card
        t = { s with
              status := if clips = 0 then 0 else 8
              clipcnt := t.clipcnt
              slots := t.slots } ∧
        t.clipcnt.toNat = min (s.clipcnt.toNat + clips) (2 ^ 32 - 1))) ∧
      (∀ k, k ≠ d.toNat → ∀ b, readByte t k b = readByte s k b)

/-- R150 to R154, R157: a legal `LOWPASS` completes. The result is as long as the source; its samples are the
quantised `b1` of the two-state recurrence that starts at 0 and is never clipped; `CLIP` and `CLIPCNT` record the
clipped samples; every other slot, register and byte is unchanged. -/
def Obligations.LowpassCompletes : Prop :=
  ∀ (s : State) (d a : Field8), LowpassLegal s.params → Memory.wf s.slots = true →
    let c := s.params.cutoff
    let fb := s.params.reso + s.params.reso / (1 - c + Config.machine.lpfEps)
    ∃ (t : State) (b0 b1 : Nat → ℚ), exec (.lowpass d a) s = .next t ∧ b0 0 = 0 ∧ b1 0 = 0 ∧
      bufLen t d.toNat = bufLen s a.toNat ∧
      (∀ i, i < bufLen s a.toNat →
        b0 (i + 1) = b0 i + c * ((bufRead s a.toNat i : ℚ) - b0 i + fb * (b0 i - b1 i)) ∧
        b1 (i + 1) = b1 i + c * (b0 (i + 1) - b1 i) ∧
        bufRead t d.toNat i = quantise (b1 (i + 1))) ∧
      (let clips := ((Finset.range (bufLen s a.toNat)).filter fun i => 32767 < |b1 (i + 1)|).card
       t = { s with
             status := if clips = 0 then 0 else 8
             clipcnt := t.clipcnt
             slots := t.slots } ∧
       t.clipcnt.toNat = min (s.clipcnt.toNat + clips) (2 ^ 32 - 1)) ∧
      (∀ k, k ≠ d.toNat → ∀ b, readByte t k b = readByte s k b)

/-! ### Errors: where each command traps, and in which order -/

/-- R91, R175: the errors of `OSCSTEP`, the first whose condition holds; nothing but `STATUS` changes. -/
def Obligations.OscstepErrorsInOrder : Prop :=
  ∀ s : State,
    let p := s.params
    let e1 := p.srate ≤ 0
    let e3 := p.pw ≤ 0 ∨ 1 ≤ p.pw
    let e5 := 5 < p.wave.toNat
    (e1 → exec .oscstep s = .next { s with status := 0x00000101 }) ∧
    (¬e1 → e3 → exec .oscstep s = .next { s with status := 0x00000301 }) ∧
    (¬e1 → ¬e3 → e5 → exec .oscstep s = .next { s with status := 0x00000501 })

/-- R110, R111, R175: the errors of `ENVEVAL`, the first whose condition holds; nothing but `STATUS` changes. -/
def Obligations.EnvevalErrorsInOrder : Prop :=
  ∀ s : State,
    let p := s.params
    let e7 := p.atk < 0 ∨ p.dcy < 0 ∨ p.rel < 0 ∨ p.sus < 0 ∨ 1 < p.sus
    let e8 := p.ctrl.getLsbD 0 = true ∧ p.noff < 0
    let e12 := p.envt < 0
    (e7 → exec .enveval s = .next { s with status := 0x00000701 }) ∧
    (¬e7 → e8 → exec .enveval s = .next { s with status := 0x00000801 }) ∧
    (¬e7 → ¬e8 → e12 → exec .enveval s = .next { s with status := 0x00000C01 })

/-- R120, R111, R175: the errors of `RENDER`, the first whose condition holds; nothing but `STATUS` changes: the
render state and the slot keep their former values. -/
def Obligations.RenderErrorsInOrder : Prop :=
  ∀ (s : State) (d : Field8),
    let p := s.params
    let e1 := p.srate ≤ 0
    let e2 := p.dur < 0
    let e3 := p.pw ≤ 0 ∨ 1 ≤ p.pw
    let e4 := (Config.machine.bufCap : Int) < ⌊p.dur * p.srate⌋
    let e5 := 5 < p.wave.toNat
    let e6 := p.amp < 0 ∨ 1 < p.amp
    let e7 := p.atk < 0 ∨ p.dcy < 0 ∨ p.rel < 0 ∨ p.sus < 0 ∨ 1 < p.sus
    let e8 := p.ctrl.getLsbD 0 = true ∧ p.noff < 0
    (e1 → exec (.render d) s = .next { s with status := 0x00000101 }) ∧
    (¬e1 → e2 → exec (.render d) s = .next { s with status := 0x00000201 }) ∧
    (¬e1 → ¬e2 → e3 → exec (.render d) s = .next { s with status := 0x00000301 }) ∧
    (¬e1 → ¬e2 → ¬e3 → e4 → exec (.render d) s = .next { s with status := 0x00000401 }) ∧
    (¬e1 → ¬e2 → ¬e3 → ¬e4 → e5 → exec (.render d) s = .next { s with status := 0x00000501 }) ∧
    (¬e1 → ¬e2 → ¬e3 → ¬e4 → ¬e5 → e6 → exec (.render d) s = .next { s with status := 0x00000601 }) ∧
    (¬e1 → ¬e2 → ¬e3 → ¬e4 → ¬e5 → ¬e6 → e7 → exec (.render d) s = .next { s with status := 0x00000701 }) ∧
    (¬e1 → ¬e2 → ¬e3 → ¬e4 → ¬e5 → ¬e6 → ¬e7 → e8 → exec (.render d) s = .next { s with status := 0x00000801 })

/-- R130, R133, R134, R175: the errors of `MIX`, the first whose condition holds, `L` being the greatest length among
the sources; nothing but `STATUS` changes. -/
def Obligations.MixErrorsInOrder : Prop :=
  ∀ (s : State) (d a n : Field8),
    let e50 := 256 < a.toNat + n.toNat
    let e9 := n = 0
    let e32 := ∃ k, k < n.toNat ∧ Config.machine.resCap < n.toNat * bufLen s (a.toNat + k)
    (e50 → exec (.mix d a n) s = .next { s with status := 0x00003203 }) ∧
    (¬e50 → e9 → exec (.mix d a n) s = .next { s with status := 0x00000901 }) ∧
    (¬e50 → ¬e9 → e32 → exec (.mix d a n) s = .next { s with status := 0x00002002 })

/-- R140, R141, R150, R152, R175: the errors of `REVERB` and `LOWPASS`, the first whose condition holds; nothing but
`STATUS` changes. -/
def Obligations.EffectErrorsInOrder : Prop :=
  ∀ (s : State) (d a : Field8),
    let p := s.params
    let e1 := p.srate ≤ 0
    let e10 := Config.machine.round (p.rdelay * p.srate / 1000) < 1
    let e11 := p.cutoff < 0 ∨ 1 < p.cutoff
    (e1 → exec (.reverb d a) s = .next { s with status := 0x00000101 }) ∧
    (¬e1 → e10 → exec (.reverb d a) s = .next { s with status := 0x00000A01 }) ∧
    (e11 → exec (.lowpass d a) s = .next { s with status := 0x00000B01 })

/-- R176, R177, R201: in every state every command ends, in one of two ways: it fails with a cause, which `STATUS`
records while every other register, every slot and `CLIPCNT` are as before; or it succeeds with `ERR` and `CAUSE`
zero. -/
def Obligations.EveryCommandSucceedsOrChangesOnlyStatus : Prop :=
  ∀ (i : Instr) (s : State),
    (∃ e : Cause, exec i s = .next { s with status := errorStatus e }) ∨
    (∃ t, exec i s = .next t ∧ errField t.status = 0 ∧ causeField t.status = 0)

/-- R172, R39: the class and the code of every cause, and that an error status has no `CLIP` and no reserved bit. -/
def Obligations.ErrorStatusTable : Prop :=
  errorStatus .sampleRate = 0x00000101 ∧ errorStatus .duration = 0x00000201 ∧ errorStatus .pulseWidth = 0x00000301 ∧
  errorStatus .bufferCap = 0x00000401 ∧ errorStatus .waveform = 0x00000501 ∧ errorStatus .amplitude = 0x00000601 ∧
  errorStatus .envelope = 0x00000701 ∧ errorStatus .noteOff = 0x00000801 ∧ errorStatus .emptyMix = 0x00000901 ∧
  errorStatus .delay = 0x00000A01 ∧ errorStatus .cutoff = 0x00000B01 ∧ errorStatus .envTime = 0x00000C01 ∧
  errorStatus .loadImage = 0x00000D01 ∧ errorStatus .resource = 0x00002002 ∧
  errorStatus (.illegal .reservedOpcode) = 0x00003003 ∧ errorStatus (.illegal .unusedField) = 0x00003103 ∧
  errorStatus (.illegal .mixRange) = 0x00003203

/-- R39, R172, R175: whatever `STATUS` held, after a command its reserved bits are 0, `CLIP = 1` only with `ERR = 0`,
and the cause is one of its class. -/
def Obligations.StatusIsLegalAfterEveryCommand : Prop :=
  ∀ (i : Instr) (s t : State), exec i s = .next t → LegalStatus t.status

/-! ### Frames -/

/-- R20 (column "written by the core in"), R51, R125: which registers and which slot a command may change. That it
leaves `inbox` and `outbox` too is about the model's own lists (notes/assumptions/1.md). No command writes a parameter
register; the render state is written by `OSCINIT`, `OSCSTEP` and `RENDER` only, `OSCOUT` by
`OSCSTEP` only, `ENVOUT` by `ENVEVAL` only, `CLIPCNT` by `MIX`, `REVERB` and `LOWPASS` only; every byte of every slot
but the command's `DST` reads as before. -/
def Obligations.CommandsWriteOnlyTheirRegisters : Prop :=
  ∀ (i : Instr) (s t : State), Memory.wf s.slots = true → exec i s = .next t →
    t.params = s.params ∧ t.inbox = s.inbox ∧ t.outbox = s.outbox ∧
    (i ≠ .oscinit → i ≠ .oscstep → (∀ d, i ≠ .render d) → t.osc = s.osc) ∧
    (i ≠ .oscstep → t.oscout = s.oscout) ∧
    (i ≠ .enveval → t.envout = s.envout) ∧
    ((∀ d a n, i ≠ .mix d a n) → (∀ d a, i ≠ .reverb d a) → (∀ d a, i ≠ .lowpass d a) → t.clipcnt = s.clipcnt) ∧
    (storeSlot i = none → t.slots = s.slots) ∧
    (∀ k, storeSlot i ≠ some k → ∀ a, readByte t k a = readByte s k a)

/-- R41, R182: nothing but reset lowers `CLIPCNT`. That the host's next action is the head of a list of the state is
the model's own (notes/assumptions/1.md). -/
def Obligations.OnlyResetLowersClipcnt : Prop :=
  ∀ s t : State, step s = .next t → s.inbox.head? ≠ some .reset → s.clipcnt.toNat ≤ t.clipcnt.toNat

/-- R64: source and destination may coincide: the buffer a legal `MIX`, `REVERB` or `LOWPASS` stores, its `STATUS` and
its count do not depend on which slot is the destination. -/
def Obligations.ResultDoesNotDependOnTheDestination : Prop :=
  ∀ (s : State) (d d' a n : Field8), Memory.wf s.slots = true →
    (∀ t t', MixLegal Config.machine a n s → exec (.mix d a n) s = .next t → exec (.mix d' a n) s = .next t' →
      slotBuf t d.toNat = slotBuf t' d'.toNat ∧ t.status = t'.status ∧ t.clipcnt = t'.clipcnt) ∧
    (∀ t t', ReverbLegal Config.machine s.params → exec (.reverb d a) s = .next t → exec (.reverb d' a) s = .next t' →
      slotBuf t d.toNat = slotBuf t' d'.toNat ∧ t.status = t'.status ∧ t.clipcnt = t'.clipcnt) ∧
    (∀ t t', LowpassLegal s.params → exec (.lowpass d a) s = .next t → exec (.lowpass d' a) s = .next t' →
      slotBuf t d.toNat = slotBuf t' d'.toNat ∧ t.status = t'.status ∧ t.clipcnt = t'.clipcnt)

/-! ### The invariant -/

/-- R36 to R39, R42, R44, R50, R57, R101: from every state that satisfies the invariant, not only those a run from
reset reaches, every step that answers a next state gives a state that satisfies it. -/
def Obligations.StepKeepsTheInvariant : Prop :=
  ∀ s t : State, Inv s → step s = .next t → Inv t

/-- The state after reset satisfies the invariant. -/
def Obligations.ResetSatisfiesTheInvariant : Prop := Inv State.reset

/-- R46, R161, R162: a machine whose host makes only moves with a meaning is never refused, and goes on so. The list of
the host's moves is the model's own (notes/assumptions/1.md). -/
def Obligations.SafeRunsAreNeverRefused : Prop :=
  ∀ s : State, SafeRun s → ∃ t, step s = .next t ∧ SafeRun t

/-! ### The configuration functions, the quantiser -/

/-- R7, R8: in every configuration `SIN` and `POW2C` have the named properties, and no others: every pair of functions
with these properties is the pair of some configuration. -/
def Obligations.SinAndPow2cHaveTheNamedProperties : Prop :=
  (∀ c : Config, SinProperties c.sin ∧ Pow2cProperties c.pow2c ∧ c.pow2c 0 = 1) ∧
  (∀ sin pow2c : ℚ → ℚ, SinProperties sin → Pow2cProperties pow2c →
    ∃ c : Config, (∀ x, c.sin x = sin x) ∧ (∀ x, c.pow2c x = pow2c x))

/-- R9 (`ROUND_NEAREST`), R11: the other parameters meet their constraints. -/
def Obligations.ParametersMeetTheirConstraints : Prop :=
  (∀ x, |(Config.machine.round x : ℚ) - x| ≤ 1 / 2) ∧ Config.machine.lfsrSeed ≠ 0 ∧
  -1 ≤ Config.machine.noiseInit ∧ Config.machine.noiseInit ≤ 1 ∧ 0 < Config.machine.lpfEps

/-- R56, R10, R41: the quantiser clips to `[-32767, 32767]`, then truncates toward zero, and counts one event, with a
saturating counter, exactly when the value lies outside. -/
def Obligations.QuantiserClipsTruncatesAndCounts : Prop :=
  ∀ (v : ℚ) (q : Tally),
    ((q16 v q).1 = if 32767 < v then 32767 else if v < -32767 then -32767 else if 0 ≤ v then ⌊v⌋ else ⌈v⌉) ∧
    (32767 < |v| → (q16 v q).2.clipped = true ∧ (q16 v q).2.count.toNat = min (q.count.toNat + 1) (2 ^ 32 - 1)) ∧
    (|v| ≤ 32767 → (q16 v q).2 = q)

/-! ### The oscillator -/

/-- R105, R36, R38: with a wrapped phase and a held value in range, a legal `OSCSTEP` returns a sample in `[-1,1]` and
leaves them so. -/
def Obligations.OscillatorStaysInRange : Prop :=
  ∀ s : State, OscstepLegal s.params → 0 ≤ s.osc.phase → s.osc.phase < 1 → -1 ≤ s.osc.nhold → s.osc.nhold ≤ 1 →
    ∃ t, exec .oscstep s = .next t ∧ -1 ≤ t.oscout ∧ t.oscout ≤ 1 ∧ 0 ≤ t.osc.phase ∧ t.osc.phase < 1 ∧
      -1 ≤ t.osc.nhold ∧ t.osc.nhold ≤ 1

/-- R103: a negative frequency is its absolute value, in `OSCSTEP` and in the advance `RENDER` shares with it, and no
frequency value raises an error. -/
def Obligations.NegativeFrequencyIsItsAbsoluteValue : Prop :=
  ∀ (s : State) (f g : ℚ),
    ∃ t u, exec .oscstep { s with params := { s.params with oscf := f } } = .next t ∧
      exec .oscstep { s with params := { s.params with oscf := g } } = .next u ∧
      t.status = u.status ∧ (|f| = |g| → t.oscout = u.oscout ∧ t.osc = u.osc) ∧
      ∀ w srate r, oscAdvance w srate f r = oscAdvance w srate |f| r

/-- R104: with frequency 0 the phase and the noise register stay, in `OSCSTEP` and in the advance `RENDER` shares with
it, and every further call returns the same sample. -/
def Obligations.ZeroFrequencyHoldsTheOutput : Prop :=
  ∀ s : State, OscstepLegal s.params → 0 ≤ s.osc.phase → s.osc.phase < 1 → s.params.oscf = 0 →
    ∃ t, exec .oscstep s = .next t ∧ t.osc = s.osc ∧ exec .oscstep t = .next t ∧
      ∀ w srate, oscAdvance w srate 0 s.osc = s.osc

/-- R102: the sample a value of the shift register maps to lies in `[-1,1)`. -/
def Obligations.NoiseMapOfTheRegister : Prop :=
  (∀ l : BitVec 16, noiseMap l = (l.toNat : ℚ) / 32768 - 1 ∧ -1 ≤ noiseMap l ∧ noiseMap l < 1) ∧
  noiseMap 0 = -1 ∧ noiseMap 32768 = 0 ∧ noiseMap 65535 = 32767 / 32768

/-- R101: one step of the shift register, bit by bit; zero is a fixed point; from any non-zero value the sequence
returns to it after exactly 65535 steps and visits every non-zero 16-bit value once. -/
def Obligations.ShiftRegisterHasFullPeriod : Prop :=
  lfsrNext 0 = 0 ∧
  ∀ l : BitVec 16,
    (∀ i, i < 15 → (lfsrNext l).getLsbD i = l.getLsbD (i + 1)) ∧
    ((lfsrNext l).getLsbD 15 = (((l.getLsbD 0 ^^ l.getLsbD 2) ^^ l.getLsbD 3) ^^ l.getLsbD 5)) ∧
    (l ≠ 0 → lfsrNext^[65535] l = l ∧ (∀ k, 0 < k → k < 65535 → lfsrNext^[k] l ≠ l) ∧
      (∀ m : BitVec 16, m ≠ 0 → ∃! k, k < 65535 ∧ lfsrNext^[k] l = m))

/-! ### The envelope -/

/-- R117: with the checks passed the envelope lies in `[0,1]` at every time, and from the end of the release window on
it is exactly 0. -/
def Obligations.EnvelopeStaysInTheUnitInterval : Prop :=
  ∀ p : Params, EnvLegal p → ∀ t : ℚ, 0 ≤ t →
    0 ≤ env p t ∧ env p t ≤ 1 ∧ (p.noffEn = true → p.noff + p.rel ≤ t → env p t = 0)

/-- R118: non-decreasing during Attack, non-increasing during Decay and after note-off, constant during Sustain, and
exactly 0 past the release; without a note-off, and before it, the envelope is its first three phases. -/
def Obligations.EnvelopeIsMonotoneInEachPhase : Prop :=
  ∀ p : Params, EnvLegal p → ∀ t u : ℚ, 0 ≤ t → t ≤ u →
    (u < p.atk → ads p t ≤ ads p u) ∧
    (p.atk ≤ t → u < p.atk + p.dcy → ads p u ≤ ads p t) ∧
    (p.atk + p.dcy ≤ t → ads p t = p.sus ∧ ads p u = p.sus) ∧
    (p.noffEn = true → p.noff ≤ t → env p u ≤ env p t) ∧
    (p.noffEn = true → p.noff + p.rel ≤ t → env p t = 0) ∧
    (p.noffEn = false → env p t = ads p t) ∧
    (p.noffEn = true → t < p.noff → env p t = ads p t)

/-- R114, R115, R116: the ends of the phases, zero durations, and a note-off before the decay has ended. -/
def Obligations.EnvelopeAtItsBoundaries : Prop :=
  ∀ p : Params, EnvLegal p →
    (0 < p.atk → 0 < p.dcy → ads p 0 = 0 ∧ ads p p.atk = 1 ∧ ads p (p.atk + p.dcy) = p.sus) ∧
    (p.atk = 0 → ads p 0 = if p.dcy = 0 then p.sus else 1) ∧
    (p.dcy = 0 → ads p p.atk = p.sus) ∧
    (p.noffEn = true → p.rel = 0 → ∀ t, p.noff ≤ t → env p t = 0) ∧
    (p.noffEn = true → 0 < p.rel → env p p.noff = ads p p.noff ∧ env p (p.noff + p.rel) = 0) ∧
    (p.noffEn = true → p.noff = 0 → 0 < p.atk → ∀ t, 0 ≤ t → env p t = 0)

/-! ### The voice -/

/-- R126, R121: two `RENDER` commands with the same contents of registers 0 to 14 report the same, and when they
succeed produce equal slots and render states, whatever else the two states hold. -/
def Obligations.RenderIsDeterministic : Prop :=
  ∀ (s u t v : State) (d e : Field8), Memory.wf s.slots = true → Memory.wf u.slots = true →
    u.params = { s.params with
      mgain := u.params.mgain
      rdelay := u.params.rdelay
      rdecay := u.params.rdecay
      cutoff := u.params.cutoff
      reso := u.params.reso
      oscf := u.params.oscf
      envt := u.params.envt } →
    exec (.render d) s = .next t → exec (.render e) u = .next v →
    t.status = v.status ∧ (errField t.status = 0 → slotBuf t d.toNat = slotBuf v e.toNat ∧ t.osc = v.osc)

/-- R127: with a positive attack the first sample is 0, for every waveform, in every configuration; `RENDER` of the
machine is that of its configuration. -/
def Obligations.RenderStartsFromSilence : Prop :=
  (∀ (c : Config) (s : State) (d : Field8),
    RenderLegal c s.params → Memory.wf s.slots = true → 0 < s.params.atk →
    bufLen (runRender c d s) d.toNat ≠ 0 → bufRead (runRender c d s) d.toNat 0 = 0) ∧
  ∀ (s : State) (d : Field8), exec (.render d) s = .next (runRender Config.machine d s)

/-- R123: the sign of `FREQ` has no effect on what `RENDER` does. -/
def Obligations.RenderIgnoresTheSignOfFreq : Prop :=
  ∀ (s : State) (d : Field8),
    ∃ t u, exec (.render d) s = .next t ∧
      exec (.render d) { s with params := { s.params with freq := -s.params.freq } } = .next u ∧
      t.slots = u.slots ∧ t.osc = u.osc ∧ t.status = u.status ∧ t.clipcnt = u.clipcnt

/-! ### The mixer -/

/-- R136: one source with `MGAIN = 1` is copied, with `MGAIN = -1` negated, neither clips; with `MGAIN = 0`, or with
silent sources, the result is all zeros, as many as the longest source has samples. -/
def Obligations.MixCopiesNegatesAndSilences : Prop :=
  ∀ (s : State) (d a n : Field8), MixLegal Config.machine a n s → Memory.wf s.slots = true →
    (∀ k, ∀ x ∈ slotBuf s k, IsSample x) →
    ∃ t, exec (.mix d a n) s = .next t ∧
      (∀ k, k < n.toNat → bufLen s (a.toNat + k) ≤ bufLen t d.toNat) ∧
      (∃ k, k < n.toNat ∧ bufLen s (a.toNat + k) = bufLen t d.toNat) ∧
      (n = 1 → s.params.mgain = 1 → slotBuf t d.toNat = slotBuf s a.toNat ∧ t.status = 0) ∧
      (n = 1 → s.params.mgain = -1 → slotBuf t d.toNat = (slotBuf s a.toNat).map (- ·) ∧ t.status = 0) ∧
      (s.params.mgain = 0 → ∀ x ∈ slotBuf t d.toNat, x = 0) ∧
      ((∀ k, k < n.toNat → ∀ x ∈ slotBuf s (a.toNat + k), x = 0) → ∀ x ∈ slotBuf t d.toNat, x = 0)

/-- R137: with `|MGAIN| <= 1` a `MIX` of samples cannot clip. -/
def Obligations.MixWithinUnitGainNeverClips : Prop :=
  ∀ (s : State) (d a n : Field8), MixLegal Config.machine a n s → (∀ k, ∀ x ∈ slotBuf s k, IsSample x) →
    |s.params.mgain| ≤ 1 →
    ∃ t, exec (.mix d a n) s = .next t ∧ t.status = 0 ∧ t.clipcnt = s.clipcnt

/-! ### The effects -/

/-- R143, R145: with `RDECAY = 0`, and with a delay at or past the end of the source, `REVERB` is a copy. -/
def Obligations.ReverbWithoutEchoIsACopy : Prop :=
  ∀ (s : State) (d a : Field8), ReverbLegal Config.machine s.params → Memory.wf s.slots = true →
    (∀ x ∈ slotBuf s a.toNat, IsSample x) →
    (s.params.rdecay = 0 ∨
      (bufLen s a.toNat : Int) ≤ Config.machine.round (s.params.rdelay * s.params.srate / 1000)) →
    ∃ t, exec (.reverb d a) s = .next t ∧ slotBuf t d.toNat = slotBuf s a.toNat ∧ t.status = 0 ∧
      t.clipcnt = s.clipcnt

/-- R155: `CUTOFF = 1` is the identity, for every `RESO` and every `LPF_EPS`. -/
def Obligations.LowpassAtFullCutoffIsTheIdentity : Prop :=
  ∀ (s : State) (d a : Field8), s.params.cutoff = 1 → Memory.wf s.slots = true →
    (∀ x ∈ slotBuf s a.toNat, IsSample x) →
    ∃ t, exec (.lowpass d a) s = .next t ∧ slotBuf t d.toNat = slotBuf s a.toNat ∧ t.status = 0 ∧
      t.clipcnt = s.clipcnt

/-- R156: `CUTOFF = 0` gives an all-zero output as long as the source. -/
def Obligations.LowpassAtZeroCutoffIsSilence : Prop :=
  ∀ (s : State) (d a : Field8), s.params.cutoff = 0 → Memory.wf s.slots = true →
    ∃ t, exec (.lowpass d a) s = .next t ∧ slotBuf t d.toNat = List.replicate (bufLen s a.toNat) 0 ∧ t.status = 0 ∧
      t.clipcnt = s.clipcnt

/-! ### The host transactions -/

/-- R20, R161, R42: which register each number names, for a write of a value of its type: that parameter takes the value
as given (of `CTRL` only bit 0), and nothing else changes; and the register reads back so, and no other register reads
otherwise than before. -/
def Obligations.WrittenRegisterReadsBack : Prop :=
  (∀ (s : State) (w : Word),
    let put (n : Fin 32) (p : Params) := perform (.wr n (.word w)) s = .next { s with params := p }
    put 0 { s.params with wave := w } ∧ put 14 { s.params with ctrl := w &&& 1 }) ∧
  (∀ (s : State) (x : ℚ),
    let put (n : Fin 32) (p : Params) := perform (.wr n (.num x)) s = .next { s with params := p }
    put 1 { s.params with freq := x } ∧ put 2 { s.params with amp := x } ∧ put 3 { s.params with atk := x } ∧
    put 4 { s.params with dcy := x } ∧ put 5 { s.params with sus := x } ∧ put 6 { s.params with rel := x } ∧
    put 7 { s.params with detune := x } ∧ put 8 { s.params with pw := x } ∧ put 9 { s.params with vrate := x } ∧
    put 10 { s.params with vdepth := x } ∧ put 11 { s.params with srate := x } ∧ put 12 { s.params with dur := x } ∧
    put 13 { s.params with noff := x } ∧ put 15 { s.params with mgain := x } ∧
    put 16 { s.params with rdelay := x } ∧ put 17 { s.params with rdecay := x } ∧
    put 18 { s.params with cutoff := x } ∧ put 19 { s.params with reso := x } ∧ put 20 { s.params with oscf := x } ∧
    put 22 { s.params with envt := x }) ∧
  ∀ (s : State) (r : Reg) (v : Value), hostWritable r = true → r ≠ .cmd → rightType r v = true →
    ∃ t, perform (.wr (regNumber r) v) s = .next t ∧
      readReg r t = some (match r, v with
        | .ctrl, .word w => .word (w &&& 1)
        | _, v => v) ∧
      (∀ r', r' ≠ r → readReg r' t = readReg r' s) ∧
      t = { s with params := t.params }

/-- R20, R162, R163: which register each number names, for a read: `RD` of registers 0 to 28 returns that register's
value (`LFSR` with bits 31 to 16 zero, R37), and `READ` of any slot the list of samples, or all the bytes of its byte
view; nothing else changes. That what is returned is appended to a list of the state is the model's own
(notes/assumptions/1.md); that the bytes are two's complement is log entry 9. -/
def Obligations.ReadsReturnAndChangeNothing : Prop :=
  ∀ s : State,
    (let get (n : Fin 32) (v : Value) := perform (.rd n) s = .next { s with outbox := s.outbox ++ [.value v] }
     let p := s.params
     get 0 (.word p.wave) ∧ get 1 (.num p.freq) ∧ get 2 (.num p.amp) ∧ get 3 (.num p.atk) ∧ get 4 (.num p.dcy) ∧
     get 5 (.num p.sus) ∧ get 6 (.num p.rel) ∧ get 7 (.num p.detune) ∧ get 8 (.num p.pw) ∧ get 9 (.num p.vrate) ∧
     get 10 (.num p.vdepth) ∧ get 11 (.num p.srate) ∧ get 12 (.num p.dur) ∧ get 13 (.num p.noff) ∧
     get 14 (.word p.ctrl) ∧ get 15 (.num p.mgain) ∧ get 16 (.num p.rdelay) ∧ get 17 (.num p.rdecay) ∧
     get 18 (.num p.cutoff) ∧ get 19 (.num p.reso) ∧ get 20 (.num p.oscf) ∧ get 21 (.num s.oscout) ∧
     get 22 (.num p.envt) ∧ get 23 (.num s.envout) ∧ get 24 (.num s.osc.phase) ∧
     get 25 (.word (BitVec.ofNat 32 s.osc.lfsr.toNat)) ∧ get 26 (.num s.osc.nhold) ∧ get 27 (.word s.status) ∧
     get 28 (.word s.clipcnt)) ∧
    (∀ r : Reg, r ≠ .cmd → ∃ v, readReg r s = some v ∧
      perform (.rd (regNumber r)) s = .next { s with outbox := s.outbox ++ [.value v] }) ∧
    (∀ k : Field8, perform (.read k .samples) s =
      .next { s with outbox := s.outbox ++ [.samples (slotBuf s k.toNat)] }) ∧
    (∀ k : Field8, perform (.read k .bytes) s =
      .next { s with outbox := s.outbox ++ [.bytes (bufferBytes (slotBuf s k.toNat))] })

/-- R46: a write to a read-only register (21, 23, 24 to 28), a read of the write-only register 29 and any access to
registers 30 and 31 are refused. -/
def Obligations.UndefinedAccessesAreRefused : Prop :=
  ∀ (s : State) (v : Value),
    (∀ n : Fin 32, n = 21 ∨ n = 23 ∨ (24 ≤ n ∧ n ≤ 28) → ∃ r, perform (.wr n v) s = .refused (.writeToReadOnly r)) ∧
    (perform (.rd 29) s = .refused (.readOfWriteOnly .cmd)) ∧
    (∀ n : Fin 32, 30 ≤ n → perform (.wr n v) s = .refused (.reservedRegister n) ∧
      perform (.rd n) s = .refused (.reservedRegister n))

/-- R53: the byte view of a slot has two bytes a sample: byte `2i` holds bits 7 to 0 and byte `2i + 1` bits 15 to 8 of
the 16-bit encoding of sample `i`. That this encoding is two's complement is no plain rule: R53 marks it "from general
knowledge, not in source", and notes/assumptions/9.md as PRESUMED. -/
def Obligations.ByteViewIsLittleEndian : Prop :=
  ∀ (s : State) (k : Nat),
    (memRead s k 0 (2 * bufLen s k)).length = 2 * bufLen s k ∧
    (∀ a, 2 * bufLen s k ≤ a → readByte s k a = none) ∧
    (∀ i, i < bufLen s k →
      readByte s k (2 * i) = some ((BitVec.ofInt 16 (bufRead s k i)).extractLsb' 0 8) ∧
      readByte s k (2 * i + 1) = some ((BitVec.ofInt 16 (bufRead s k i)).extractLsb' 8 8))

/-- R164, R52, R57: `LOAD` replaces one whole slot and leaves `STATUS`; an image that is odd in bytes, longer than
`BUF_CAP`, or holds -32768 changes nothing but `STATUS`, to 0x00000D01; a little-endian byte image does what the
samples it encodes do. That a 16-bit word is read as two's complement is PRESUMED (notes/assumptions/9.md, with R53's
own mark), and that the list given is one of 16-bit words is the model's choice (notes/assumptions/10.md). -/
def Obligations.LoadReplacesOneSlotOrFails : Prop :=
  ∀ (s : State) (d : Field8), Memory.wf s.slots = true →
    (∀ l : List (BitVec 16), l.length ≤ Config.machine.bufCap → (∀ x ∈ l, x ≠ 0x8000) →
      ∃ t, perform (.load d (.samples l)) s = .next t ∧ slotBuf t d.toNat = l.map BitVec.toInt ∧
        (∀ k, k ≠ d.toNat → ∀ a, readByte t k a = readByte s k a) ∧ t = { s with slots := t.slots }) ∧
    (∀ l : List (BitVec 16), Config.machine.bufCap < l.length ∨ 0x8000 ∈ l →
      perform (.load d (.samples l)) s = .next { s with status := 0x00000D01 }) ∧
    (∀ l : List Byte, l.length % 2 = 1 → perform (.load d (.bytes l)) s = .next { s with status := 0x00000D01 }) ∧
    (∀ l : List (BitVec 16),
      perform (.load d (.bytes (l.flatMap fun x => [x.extractLsb' 0 8, x.extractLsb' 8 8]))) s =
        perform (.load d (.samples l)) s)

/-- R164 (spec/95_test_vectors.md S8): `LOAD` of the bytes, or of the samples, that `READ` returned from a slot of
samples makes the destination equal that slot and leaves `STATUS` and every other slot. The form of the two images is
the model's (notes/assumptions/9.md, 10.md). -/
def Obligations.LoadRestoresWhatReadReturned : Prop :=
  ∀ (s : State) (d a : Field8), Memory.wf s.slots = true → (∀ x ∈ slotBuf s a.toNat, IsSample x) →
    bufLen s a.toNat ≤ Config.machine.bufCap →
    ∀ image, image = Image.bytes (bufferBytes (slotBuf s a.toNat)) ∨
        image = Image.samples ((slotBuf s a.toNat).map (BitVec.ofInt 16)) →
      ∃ t, perform (.load d image) s = .next t ∧ slotBuf t d.toNat = slotBuf s a.toNat ∧
        (∀ k, k ≠ d.toNat → slotBuf t k = slotBuf s k) ∧ t = { s with slots := t.slots }

/-! ### Reset -/

/-- R49: the reset table. -/
def Obligations.ResetTable : Prop :=
  let s := State.reset
  let p := s.params
  p.wave = 0 ∧ p.freq = 0 ∧ p.amp = 0 ∧ p.atk = 0 ∧ p.dcy = 0 ∧ p.sus = 0 ∧ p.rel = 0 ∧ p.detune = 0 ∧ p.vrate = 0 ∧
  p.vdepth = 0 ∧ p.pw = 1 / 2 ∧ p.srate = 44100 ∧ p.dur = 0 ∧ p.noff = 0 ∧ p.ctrl = 0 ∧ p.mgain = 1 ∧ p.rdelay = 0 ∧
  p.rdecay = 0 ∧ p.cutoff = 1 ∧ p.reso = 0 ∧ p.oscf = 0 ∧ s.oscout = 0 ∧ p.envt = 0 ∧ s.envout = 0 ∧
  s.osc.phase = 0 ∧ s.osc.lfsr = Config.machine.lfsrSeed ∧ s.osc.nhold = Config.machine.noiseInit ∧
  s.status = 0 ∧ s.clipcnt = 0 ∧ ∀ k, slotBuf s k = []

/-- R190: the reset event gives every register and every slot its reset value, whatever they held. That the host's
remaining actions and what it has been given stay is the model's own (notes/assumptions/3.md). -/
def Obligations.ResetEventGivesTheResetState : Prop :=
  ∀ s : State, ∃ t, perform .reset s = .next t ∧ t.params = Params.reset ∧
    t.osc = RenderState.fresh Config.machine ∧ t.oscout = 0 ∧ t.envout = 0 ∧ t.status = 0 ∧ t.clipcnt = 0 ∧
    (∀ r, readReg r t = readReg r State.reset) ∧ (∀ k, slotBuf t k = []) ∧ t.inbox = s.inbox ∧ t.outbox = s.outbox

/-- R192: each command issued directly after reset has a defined outcome. -/
def Obligations.EveryCommandAfterResetHasItsOutcome : Prop :=
  ∀ d a n : Field8, n ≠ 0 → a.toNat + n.toNat ≤ 256 →
    (∃ t, exec .nop State.reset = .next t ∧ t.status = 0) ∧
    (∃ t, exec .oscinit State.reset = .next t ∧ t.status = 0) ∧
    (∃ t, exec .oscstep State.reset = .next t ∧ t.status = 0 ∧ t.oscout = 0 ∧ t.osc.phase = 0) ∧
    (∃ t, exec .enveval State.reset = .next t ∧ t.status = 0 ∧ t.envout = 0) ∧
    (∃ t, exec (.render d) State.reset = .next t ∧ t.status = 0 ∧ slotBuf t d.toNat = []) ∧
    (∃ t, exec (.mix d a n) State.reset = .next t ∧ t.status = 0 ∧ slotBuf t d.toNat = []) ∧
    (∃ t, exec (.lowpass d a) State.reset = .next t ∧ t.status = 0 ∧ slotBuf t d.toNat = []) ∧
    exec (.reverb d a) State.reset = .next { State.reset with status := 0x00000A01 }

/-! ### Pseudo-instructions -/

/-- R77, R198: what the pseudo-instructions do, in one step for each host action of their expansion. `SETENV`, `NOTEOFF`
and `NONOTEOFF` write the registers they name. `PAD` gives the destination the source's samples with `n` zeros in front,
and the host the source's samples; a result longer than `BUF_CAP` changes no slot and leaves `STATUS` 0x00000D01. How
the expansion stands in the list of host actions is the model's own (notes/assumptions/1.md, 16.md). -/
def Obligations.PseudoInstructionsDoWhatTheyExpandTo : Prop :=
  ∀ (s : State) (rest : List HostAction),
    (∀ x y z w : ℚ, s.inbox = setenvActions x y z w ++ rest →
      ∃ t₁ t₂ t₃, step s = .next t₁ ∧ step t₁ = .next t₂ ∧ step t₂ = .next t₃ ∧
        step t₃ = .next
          { s with
            inbox := rest
            params := { s.params with
              atk := x
              dcy := y
              sus := z
              rel := w } }) ∧
    (∀ x : ℚ, s.inbox = noteoffActions x ++ rest →
      ∃ t, step s = .next t ∧
        step t = .next
          { s with
            inbox := rest
            params := { s.params with
              noff := x
              ctrl := 1 } }) ∧
    (s.inbox = nonoteoffActions ++ rest →
      step s = .next { s with inbox := rest, params := { s.params with ctrl := 0 } }) ∧
    (∀ (d a : Field8) (n : Nat), s.inbox = padActions d a n ++ rest → Memory.wf s.slots = true →
      (∀ x ∈ slotBuf s a.toNat, IsSample x) →
      let seen : State := { s with inbox := rest, outbox := s.outbox ++ [.samples (slotBuf s a.toNat)] }
      ∃ t, step s = .next t ∧
        (n + bufLen s a.toNat ≤ Config.machine.bufCap →
          ∃ u, step t = .next u ∧ slotBuf u d.toNat = List.replicate n 0 ++ slotBuf s a.toNat ∧
            (∀ k, k ≠ d.toNat → slotBuf u k = slotBuf s k) ∧ u = { seen with slots := u.slots }) ∧
        (Config.machine.bufCap < n + bufLen s a.toNat → step t = .next { seen with status := 0x00000D01 }))
end

