-- ==== Sys2Proof/Laws/State.lean ====
section
/-! SUPPORT. One lemma per field of State for each operation that changes it (true by rfl). -/

namespace Sys2Proof.Machine

/-! ### `raise` -/

@[simp] theorem raise_params (e : Cause) (s : State) : (raise e s).params = s.params := rfl
@[simp] theorem raise_osc (e : Cause) (s : State) : (raise e s).osc = s.osc := rfl
@[simp] theorem raise_oscout (e : Cause) (s : State) : (raise e s).oscout = s.oscout := rfl
@[simp] theorem raise_envout (e : Cause) (s : State) : (raise e s).envout = s.envout := rfl
@[simp] theorem raise_status (e : Cause) (s : State) : (raise e s).status = errorStatus e := rfl
@[simp] theorem raise_clipcnt (e : Cause) (s : State) : (raise e s).clipcnt = s.clipcnt := rfl
@[simp] theorem raise_slots (e : Cause) (s : State) : (raise e s).slots = s.slots := rfl
@[simp] theorem raise_inbox (e : Cause) (s : State) : (raise e s).inbox = s.inbox := rfl
@[simp] theorem raise_outbox (e : Cause) (s : State) : (raise e s).outbox = s.outbox := rfl

/-! ### `finish` -/

@[simp] theorem finish_params (clipped : Bool) (s : State) : (finish clipped s).params = s.params := rfl
@[simp] theorem finish_osc (clipped : Bool) (s : State) : (finish clipped s).osc = s.osc := rfl
@[simp] theorem finish_oscout (clipped : Bool) (s : State) : (finish clipped s).oscout = s.oscout := rfl
@[simp] theorem finish_envout (clipped : Bool) (s : State) : (finish clipped s).envout = s.envout := rfl
@[simp] theorem finish_status (clipped : Bool) (s : State) : (finish clipped s).status = statusWord 0 clipped 0 := rfl
@[simp] theorem finish_clipcnt (clipped : Bool) (s : State) : (finish clipped s).clipcnt = s.clipcnt := rfl
@[simp] theorem finish_slots (clipped : Bool) (s : State) : (finish clipped s).slots = s.slots := rfl
@[simp] theorem finish_inbox (clipped : Bool) (s : State) : (finish clipped s).inbox = s.inbox := rfl
@[simp] theorem finish_outbox (clipped : Bool) (s : State) : (finish clipped s).outbox = s.outbox := rfl

/-! ### `bufWrite` -/

@[simp] theorem bufWrite_params (k : Nat) (l : Buffer) (s : State) : (bufWrite k l s).params = s.params := rfl
@[simp] theorem bufWrite_osc (k : Nat) (l : Buffer) (s : State) : (bufWrite k l s).osc = s.osc := rfl
@[simp] theorem bufWrite_oscout (k : Nat) (l : Buffer) (s : State) : (bufWrite k l s).oscout = s.oscout := rfl
@[simp] theorem bufWrite_envout (k : Nat) (l : Buffer) (s : State) : (bufWrite k l s).envout = s.envout := rfl
@[simp] theorem bufWrite_status (k : Nat) (l : Buffer) (s : State) : (bufWrite k l s).status = s.status := rfl
@[simp] theorem bufWrite_clipcnt (k : Nat) (l : Buffer) (s : State) : (bufWrite k l s).clipcnt = s.clipcnt := rfl
@[simp] theorem bufWrite_slots (k : Nat) (l : Buffer) (s : State) : (bufWrite k l s).slots = Memory.set s.slots k l := rfl
@[simp] theorem bufWrite_inbox (k : Nat) (l : Buffer) (s : State) : (bufWrite k l s).inbox = s.inbox := rfl
@[simp] theorem bufWrite_outbox (k : Nat) (l : Buffer) (s : State) : (bufWrite k l s).outbox = s.outbox := rfl

/-! ### `storeResult` -/

@[simp] theorem storeResult_params (d : Field8) (l : Buffer) (q : Tally) (s : State) : (storeResult d l q s).params = s.params := rfl
@[simp] theorem storeResult_osc (d : Field8) (l : Buffer) (q : Tally) (s : State) : (storeResult d l q s).osc = s.osc := rfl
@[simp] theorem storeResult_oscout (d : Field8) (l : Buffer) (q : Tally) (s : State) : (storeResult d l q s).oscout = s.oscout := rfl
@[simp] theorem storeResult_envout (d : Field8) (l : Buffer) (q : Tally) (s : State) : (storeResult d l q s).envout = s.envout := rfl
@[simp] theorem storeResult_status (d : Field8) (l : Buffer) (q : Tally) (s : State) : (storeResult d l q s).status = statusWord 0 q.clipped 0 := rfl
@[simp] theorem storeResult_clipcnt (d : Field8) (l : Buffer) (q : Tally) (s : State) : (storeResult d l q s).clipcnt = q.count := rfl
@[simp] theorem storeResult_slots (d : Field8) (l : Buffer) (q : Tally) (s : State) : (storeResult d l q s).slots = Memory.set s.slots d.toNat l := rfl
@[simp] theorem storeResult_inbox (d : Field8) (l : Buffer) (q : Tally) (s : State) : (storeResult d l q s).inbox = s.inbox := rfl
@[simp] theorem storeResult_outbox (d : Field8) (l : Buffer) (q : Tally) (s : State) : (storeResult d l q s).outbox = s.outbox := rfl

/-! ### `reply` -/

@[simp] theorem reply_params (r : Reply) (s : State) : (reply r s).params = s.params := rfl
@[simp] theorem reply_osc (r : Reply) (s : State) : (reply r s).osc = s.osc := rfl
@[simp] theorem reply_oscout (r : Reply) (s : State) : (reply r s).oscout = s.oscout := rfl
@[simp] theorem reply_envout (r : Reply) (s : State) : (reply r s).envout = s.envout := rfl
@[simp] theorem reply_status (r : Reply) (s : State) : (reply r s).status = s.status := rfl
@[simp] theorem reply_clipcnt (r : Reply) (s : State) : (reply r s).clipcnt = s.clipcnt := rfl
@[simp] theorem reply_slots (r : Reply) (s : State) : (reply r s).slots = s.slots := rfl
@[simp] theorem reply_inbox (r : Reply) (s : State) : (reply r s).inbox = s.inbox := rfl
@[simp] theorem reply_outbox (r : Reply) (s : State) : (reply r s).outbox = s.outbox ++ [r] := rfl

/-! ### `PAD` -/

/-- What the first step of `PAD` does (R77): the reply, and the `LOAD` as the host's next action. -/
theorem hostPad_next (d a : Field8) (n : Nat) (s : State) :
    hostPad d a n s = .next { s with
      inbox := paddedLoad d n (slotBuf s a.toNat) :: s.inbox
      outbox := s.outbox ++ [.samples (slotBuf s a.toNat)] } := rfl

end Sys2Proof.Machine
end

