-- ==== Sys2Proof/Laws/Memory.lean ====
section
/-! SUPPORT. Buffer memory: a read after a write, the canonical form, that equal memories are equal data, and
the samples a padded list stands for. -/

namespace Sys2Proof.Machine

@[simp] theorem Memory.get_nil (k : Nat) : Memory.get [] k = [] := rfl

theorem Memory.get_cons (j : Nat) (b : Buffer) (m : Memory) (k : Nat) :
    Memory.get ((j, b) :: m) k = if j = k then b else Memory.get m k := rfl

/-- A slot below every listed one is empty. -/
theorem Memory.get_of_lt {m : Memory} {k : Nat} (h : ∀ e ∈ m, k < e.1) : Memory.get m k = [] := by
  induction m with
  | nil => rfl
  | cons e m ih =>
    have he := h e (by simp)
    rw [Memory.get_cons, if_neg (by omega), ih fun e' h' => h e' (by simp [h'])]

/-- Only the order of the slot numbers is needed of the canonical form for reads after writes. -/
def Memory.Rising (m : Memory) : Prop := (m.map Prod.fst).Pairwise (· < ·)

theorem Memory.Rising.tail {e : Nat × Buffer} {m : Memory} (h : Memory.Rising (e :: m)) : Memory.Rising m :=
  (List.pairwise_cons.mp h).2

theorem Memory.Rising.head {e : Nat × Buffer} {m : Memory} (h : Memory.Rising (e :: m)) : ∀ f ∈ m, e.1 < f.1 :=
  fun f hf => (List.pairwise_cons.mp h).1 f.1 (List.mem_map_of_mem hf)

theorem Memory.wf_iff (m : Memory) :
    Memory.wf m = true ↔ Memory.Rising m ∧ ∀ e ∈ m, e.1 < slotCount ∧ e.2 ≠ [] := by
  simp [Memory.wf, Memory.Rising]

theorem Memory.wf_nil : Memory.wf [] = true := rfl

theorem Memory.get_set (m : Memory) (k k' : Nat) (b : Buffer) (h : Memory.Rising m) :
    Memory.get (Memory.set m k b) k' = if k = k' then b else Memory.get m k' := by
  induction m with
  | nil => cases b <;> simp [Memory.set, Memory.get_cons]
  | cons e m ih =>
    obtain ⟨j, x⟩ := e
    have hj : ∀ f ∈ m, j < f.1 := h.head
    have gone : k' ≤ j → Memory.get m k' = [] := fun hk => Memory.get_of_lt fun f hf => by have := hj f hf; omega
    rw [Memory.set]
    by_cases h1 : k < j
    · rw [if_pos h1]
      cases b with
      | nil =>
        by_cases hk : k = k'
        · rw [if_pos hk, List.isEmpty_nil, if_pos rfl, Memory.get_cons, if_neg (by omega), gone (by omega)]
        · simp [hk]
      | cons y b => simp [Memory.get_cons]
    · rw [if_neg h1]
      by_cases h2 : k = j
      · rw [if_pos h2]
        cases b with
        | nil =>
          by_cases hk : k = k'
          · simp [hk, gone (show k' ≤ j by omega)]
          · rw [List.isEmpty_nil, if_pos rfl, if_neg hk, Memory.get_cons, if_neg (by omega)]
        | cons y b =>
          by_cases hk : k = k'
          · simp [Memory.get_cons, hk]
          · simp [Memory.get_cons, hk, show j ≠ k' by omega]
      · rw [if_neg h2, Memory.get_cons, Memory.get_cons, ih h.tail]
        by_cases hk : k = k'
        · rw [if_neg (by omega), if_pos hk, if_pos hk]
        · rw [if_neg hk, if_neg hk]

/-- The keys of a memory after a write. -/
theorem Memory.mem_set {m : Memory} {k : Nat} {b : Buffer} {e : Nat × Buffer} (h : e ∈ Memory.set m k b) :
    (e = (k, b) ∧ b ≠ []) ∨ e ∈ m := by
  induction m with
  | nil => cases b <;> simp_all [Memory.set]
  | cons f m ih =>
    obtain ⟨j, x⟩ := f
    unfold Memory.set at h
    split_ifs at h <;> simp only [List.isEmpty_iff, List.mem_cons] at * <;> tauto

theorem Memory.rising_set {m : Memory} (k : Nat) (b : Buffer) (h : Memory.Rising m) :
    Memory.Rising (Memory.set m k b) := by
  induction m with
  | nil => cases b <;> simp [Memory.set, Memory.Rising]
  | cons e m ih =>
    obtain ⟨j, x⟩ := e
    have hj : ∀ f ∈ m, j < f.1 := h.head
    have cons {k' : Nat} {b' : Buffer} {m' : Memory} (h1 : ∀ f ∈ m', k' < f.1) (h2 : Memory.Rising m') :
        Memory.Rising ((k', b') :: m') :=
      List.pairwise_cons.mpr ⟨by simpa using fun a c hc => h1 (a, c) hc, h2⟩
    unfold Memory.set
    split_ifs with h1 h2 h3
    · exact h
    · refine cons (fun f hf => ?_) h
      rcases List.mem_cons.mp hf with rfl | hf
      · exact h1
      · exact h1.trans (hj f hf)
    · exact h.tail
    · exact cons (fun f hf => by have := hj f hf; omega) h.tail
    · refine cons (fun f hf => ?_) (ih h.tail)
      rcases Memory.mem_set hf with ⟨rfl, -⟩ | hf
      · show j < k; omega
      · exact hj f hf

/-- A write of an existing slot keeps the canonical form. -/
theorem Memory.wf_set {m : Memory} {k : Nat} (b : Buffer) (h : Memory.wf m = true) (hk : k < slotCount) :
    Memory.wf (Memory.set m k b) = true := by
  rw [Memory.wf_iff] at h ⊢
  refine ⟨Memory.rising_set k b h.1, fun e he => ?_⟩
  rcases Memory.mem_set he with ⟨rfl, hb⟩ | he
  · exact ⟨hk, hb⟩
  · exact h.2 e he

/-- Two memories in canonical form that read alike are the same data. -/
theorem Memory.ext_of_wf {m m' : Memory} (h : Memory.wf m = true) (h' : Memory.wf m' = true)
    (heq : ∀ k, Memory.get m k = Memory.get m' k) : m = m' := by
  rw [Memory.wf_iff] at h h'
  induction m generalizing m' with
  | nil =>
    cases m' with
    | nil => rfl
    | cons f m' =>
      exact absurd (heq f.1).symm (by rw [Memory.get_cons, if_pos rfl]; exact (h'.2 f (by simp)).2)
  | cons e m ih =>
    cases m' with
    | nil => exact absurd (heq e.1) (by rw [Memory.get_cons, if_pos rfl]; exact (h.2 e (by simp)).2)
    | cons f m' =>
      obtain ⟨j, x⟩ := e
      obtain ⟨j', x'⟩ := f
      have hx : x ≠ [] := (h.2 (j, x) (by simp)).2
      have hx' : x' ≠ [] := (h'.2 (j', x') (by simp)).2
      have hj := h.1.head
      have hj' := h'.1.head
      have out {k : Nat} (hk : k ≤ j) : Memory.get m k = [] :=
        Memory.get_of_lt fun f hf => by have := hj f hf; simp only at this; omega
      have out' {k : Nat} (hk : k ≤ j') : Memory.get m' k = [] :=
        Memory.get_of_lt fun f hf => by have := hj' f hf; simp only at this; omega
      have e1 := heq j
      have e2 := heq j'
      simp only [Memory.get_cons, if_true] at e1 e2
      have hjj : j = j' := by
        rcases lt_trichotomy j j' with hlt | heq | hgt
        · rw [if_neg (by omega), out' hlt.le] at e1; exact absurd e1 hx
        · exact heq
        · rw [if_neg (by omega), out hgt.le] at e2; exact absurd e2.symm hx'
      subst hjj
      simp only [if_true] at e1
      subst e1
      refine congrArg _ (ih ⟨h.1.tail, fun e he => h.2 e (by simp [he])⟩ ⟨h'.1.tail, fun e he => h'.2 e (by simp [he])⟩
        fun k => ?_)
      have := heq k
      simp only [Memory.get_cons] at this
      split_ifs at this with hk
      · subst hk; rw [out le_rfl, out' le_rfl]
      · exact this

/-! ### Slots of a state -/

theorem slotBuf_of_slots {s t : State} (h : t.slots = s.slots) (k : Nat) : slotBuf t k = slotBuf s k := by
  simp [slotBuf, h]

theorem bufLen_of_slots {s t : State} (h : t.slots = s.slots) (k : Nat) : bufLen t k = bufLen s k := by
  simp [bufLen, slotBuf_of_slots h]

/-- A read after a write (R52). -/
theorem slotBuf_bufWrite (k k' : Nat) (l : Buffer) (s : State) (h : Memory.wf s.slots = true) :
    slotBuf (bufWrite k l s) k' = if k = k' then l else slotBuf s k' :=
  Memory.get_set _ _ _ _ ((Memory.wf_iff _).mp h).1

theorem slotBuf_storeResult (d : Field8) (k : Nat) (l : Buffer) (q : Tally) (s : State)
    (h : Memory.wf s.slots = true) :
    slotBuf (storeResult d l q s) k = if d.toNat = k then l else slotBuf s k :=
  Memory.get_set _ _ _ _ ((Memory.wf_iff _).mp h).1

/-! ### What `LOAD` is given -/

/-- Every sample is its 16-bit word, read as a signed integer: what `LOAD` stores is what the host was given. -/
theorem imageSamples_padded (n : Nat) (l : Buffer) (h : ∀ x ∈ l, IsSample x) :
    imageSamples (.samples (List.replicate n 0 ++ l.map (BitVec.ofInt 16))) = some (List.replicate n 0 ++ l) := by
  have hx : ∀ x ∈ l, (BitVec.ofInt 16 x).toInt = x := fun x hx => by
    obtain ⟨a, b⟩ := h x hx
    rw [BitVec.toInt_ofInt, Int.bmod_eq_of_le] <;> simp only [sampleMax] at a b <;> omega
  simp only [imageSamples, List.map_append, List.map_replicate, List.map_map]
  rw [show List.map (BitVec.toInt ∘ BitVec.ofInt 16) l = l from
    (List.map_congr_left hx).trans (List.map_id l)]
  rfl

end Sys2Proof.Machine
end

