-- ==== Sys2Proof/Laws/Numeric.lean ====
section
/-! SUPPORT. The numeric helpers in the library's terms, and what the parameters of a configuration are. -/

namespace Sys2Proof

@[simp] theorem floorNum_eq (x : Num) : floorNum x = ⌊x⌋ := rfl

theorem fracNum_eq (x : Num) : fracNum x = Int.fract x := rfl

theorem absNum_eq (x : Num) : absNum x = |x| := by
  unfold absNum
  split
  · rw [abs_of_neg ‹_›]
  · rw [abs_of_nonneg (not_lt.mp ‹_›)]

theorem fracNum_nonneg (x : Num) : 0 ≤ fracNum x := Int.fract_nonneg x
theorem fracNum_lt_one (x : Num) : fracNum x < 1 := Int.fract_lt_one x
theorem fracNum_of_unit {x : Num} (h0 : 0 ≤ x) (h1 : x < 1) : fracNum x = x := Int.fract_eq_self.mpr ⟨h0, h1⟩
@[simp] theorem fracNum_fracNum (x : Num) : fracNum (fracNum x) = fracNum x := Int.fract_fract x

theorem truncNum_of_nonneg {x : Num} (h : 0 ≤ x) : truncNum x = ⌊x⌋ := by simp [truncNum, h]

theorem truncNum_of_nonpos {x : Num} (h : x ≤ 0) : truncNum x = ⌈x⌉ := by
  rcases h.lt_or_eq with h' | rfl
  · simp [truncNum, not_le.mpr h', Int.floor_neg]
  · simp [truncNum]

@[simp] theorem truncNum_intCast (n : Int) : truncNum (n : Num) = n := by
  rcases le_total 0 n with h | h
  · rw [truncNum_of_nonneg (by exact_mod_cast h)]; simp
  · rw [truncNum_of_nonpos (by exact_mod_cast h)]; simp

theorem truncNum_mono {x y : Num} (h : x ≤ y) : truncNum x ≤ truncNum y := by
  rcases le_total 0 x with hx | hx
  · rw [truncNum_of_nonneg hx, truncNum_of_nonneg (hx.trans h)]; exact Int.floor_mono h
  · rcases le_total 0 y with hy | hy
    · rw [truncNum_of_nonpos hx, truncNum_of_nonneg hy]
      exact (Int.ceil_le.mpr (by simpa using hx)).trans (Int.floor_nonneg.mpr hy)
    · rw [truncNum_of_nonpos hx, truncNum_of_nonpos hy]; exact Int.ceil_mono h

theorem clipNum_mem (x : Num) : -32767 ≤ clipNum x ∧ clipNum x ≤ 32767 := by
  constructor <;> simp [clipNum]

theorem clipNum_of_mem {x : Num} (h : -32767 ≤ x ∧ x ≤ 32767) : clipNum x = x := by
  simp [clipNum, h.1, h.2]

/-! ### The parameters: each meets its constraint, and each legal choice is some configuration -/

theorem Config.lfsrSeed_ne_zero (c : Config) : c.lfsrSeed ≠ 0 := by
  unfold Config.lfsrSeed; split
  · decide
  · assumption

theorem Config.noiseInit_mem (c : Config) : -1 ≤ c.noiseInit ∧ c.noiseInit ≤ 1 := by
  constructor <;> simp [Config.noiseInit]

theorem Config.lpfEps_pos (c : Config) : 0 < c.lpfEps := by
  unfold Config.lpfEps; split
  · assumption
  · norm_num

theorem pow2Int_pos (k : Int) : 0 < pow2Int k := by
  unfold pow2Int; split <;> positivity

theorem Config.round_below (c : Config) {x : Num} (h : Int.fract x < 1 / 2) : c.round x = ⌊x⌋ := if_pos h

theorem Config.round_above (c : Config) {x : Num} (h : 1 / 2 < Int.fract x) : c.round x = ⌊x⌋ + 1 := by
  rw [Config.round, fracNum_eq, if_neg (not_lt.mpr h.le), if_pos h, floorNum_eq]

theorem Config.round_tie (c : Config) {x : Num} (h : Int.fract x = 1 / 2) :
    c.round x = if c.tieUp ⌊x⌋ then ⌊x⌋ + 1 else ⌊x⌋ := by
  rw [Config.round, fracNum_eq, if_neg (not_lt.mpr h.ge), if_neg (not_lt.mpr h.le), floorNum_eq]

theorem pow2Int_eq_zpow (k : Int) : pow2Int k = (2 : Num) ^ k := by
  unfold pow2Int
  split
  · next h => obtain ⟨n, rfl⟩ := Int.eq_ofNat_of_zero_le h; simp
  · next h =>
    obtain ⟨n, hn⟩ := Int.eq_ofNat_of_zero_le (a := -k) (by omega)
    obtain rfl : k = -(n : Int) := by omega
    simp

theorem sinExact_some {f : Num → Num} (h : SinProperties f) {p v : Num} (hp : sinExact p = some v) : f p = v := by
  obtain ⟨-, h0, -, ⟨q1, q2, q3⟩, t1, t2, t3, t4⟩ := h
  unfold sinExact at hp
  split_ifs at hp with a b c d e g <;> simp only [Option.some.injEq] at hp <;> subst hp
  · rw [a, h0]
  · rcases b with rfl | rfl <;> assumption
  · rw [c, q1]
  · rw [d, q2]
  · rcases e with rfl | rfl <;> assumption
  · rw [g, q3]

/-- Every choice of the OPEN parameters that meets the spec's constraints (R7, R8, R9, R11) is a `Config`: the
accessors add nothing to the constraints. -/
theorem config_realises {sin pow2c : Num → Num} {round : Num → Int} {seed : BitVec 16} {noise eps : Num} (cap work : Nat)
    (hs : SinProperties sin) (hp : Pow2cProperties pow2c) (hr : ∀ x, |(round x : Num) - x| ≤ 1 / 2) (h0 : seed ≠ 0)
    (hn : -1 ≤ noise ∧ noise ≤ 1) (he : 0 < eps) :
    ∃ c : Config, (∀ x, c.sin x = sin x) ∧ (∀ x, c.pow2c x = pow2c x) ∧ (∀ x, c.round x = round x) ∧
      c.lfsrSeed = seed ∧ c.noiseInit = noise ∧ c.lpfEps = eps ∧ c.bufCap = cap ∧ c.resCap = work := by
  refine ⟨Config.mk sin pow2c (fun n => decide (round (n + 1 / 2) = n + 1)) seed noise eps cap work, fun x => ?_,
    fun x => ?_, fun x => ?_, ?_, ?_, ?_, rfl, rfl⟩
  · unfold Config.sin
    split
    · next h => rw [hs.period, ← sinExact_some hs h]; rfl
    · rw [hs.period x, fracNum_eq]; simp [(hs.range _).1, (hs.range _).2]
  · unfold Config.pow2c
    split
    · next h =>
      have hx : x = 1200 * ((x / 1200).num : Num) := by rw [Rat.coe_int_num_of_den_eq_one h]; ring
      conv_rhs => rw [hx, hp.octave, ← pow2Int_eq_zpow]
    · simp [hp.pos]
  · have hx := Int.floor_add_fract x
    obtain ⟨hl, hu⟩ := abs_le.mp (hr x)
    have lo := Int.fract_nonneg x
    have hi := Int.fract_lt_one x
    rcases lt_trichotomy (Int.fract x) (1 / 2) with h | h | h
    · rw [Config.round_below _ h]
      have h1 : (round x : Num) < ⌊x⌋ + 1 := by linarith
      have h2 : (⌊x⌋ : Num) < round x + 1 := by linarith
      norm_cast at h1 h2; omega
    · rw [Config.round_tie _ h]
      have hf : (⌊x⌋ : Num) + 1 / 2 = x := by linarith
      have h1 : (round x : Num) < ⌊x⌋ + 2 := by linarith
      have h2 : (⌊x⌋ : Num) < round x + 1 := by linarith
      norm_cast at h1 h2
      simp only [hf, decide_eq_true_eq]
      split <;> omega
    · rw [Config.round_above _ h]
      have h1 : (round x : Num) < ⌊x⌋ + 2 := by linarith
      have h2 : (⌊x⌋ : Num) < round x := by linarith
      norm_cast at h1 h2; omega
  · exact if_neg h0
  · simp [Config.noiseInit, hn.1, hn.2]
  · simp [Config.lpfEps, he]

end Sys2Proof
end

