-- ==== Sys2Proof/Laws/Ops.lean ====
section
/-! SUPPORT. The shared operations: the loop, the checks, the quantiser, the output stream, and what each command can
do, said once. -/

namespace Sys2Proof.Machine

/-! ### The loop -/

@[simp] theorem forRange_zero {σ : Type} (body : Nat → σ → σ) (a : σ) : forRange 0 body a = a := rfl

@[simp] theorem forRange_succ {σ : Type} (n : Nat) (body : Nat → σ → σ) (a : σ) :
    forRange (n + 1) body a = body n (forRange n body a) := rfl

/-- What holds before the loop and is kept by every pass holds after it. -/
theorem forRange_induction {σ : Type} {P : Nat → σ → Prop} {n : Nat} {body : Nat → σ → σ} {a : σ} (h0 : P 0 a)
    (hs : ∀ i x, i < n → P i x → P (i + 1) (body i x)) : P n (forRange n body a) := by
  induction n with
  | zero => exact h0
  | succ n ih => exact hs n _ (Nat.lt_succ_self n) (ih fun i x hi => hs i x (by omega))

/-! ### The checks -/

theorem firstCause_none {l : List (Bool × Cause)} : firstCause l = none ↔ ∀ e ∈ l, e.1 = false := by
  induction l with
  | nil => simp [firstCause]
  | cons e l ih => obtain ⟨b, c⟩ := e; cases b <;> simp [firstCause, ih]

/-- The cause reported is one whose condition holds, and no earlier condition holds (R175). -/
theorem firstCause_some {l : List (Bool × Cause)} {e : Cause} :
    firstCause l = some e ↔ ∃ l₁ l₂, l = l₁ ++ (true, e) :: l₂ ∧ ∀ x ∈ l₁, x.1 = false := by
  induction l with
  | nil => simp [firstCause]
  | cons x l ih =>
    obtain ⟨b, c⟩ := x
    cases b
    · rw [show firstCause ((false, c) :: l) = firstCause l from rfl, ih]
      constructor
      · rintro ⟨l₁, l₂, rfl, h⟩
        exact ⟨(false, c) :: l₁, l₂, rfl, by simpa using h⟩
      · rintro ⟨l₁, l₂, h1, h2⟩
        cases l₁ with
        | nil => simp at h1
        | cons y l₁ =>
          simp only [List.cons_append, List.cons.injEq] at h1
          exact ⟨l₁, l₂, h1.2, fun z hz => h2 z (by simp [hz])⟩
    · simp only [firstCause, if_true, Option.some.injEq]
      constructor
      · rintro rfl; exact ⟨[], l, rfl, by simp⟩
      · rintro ⟨l₁, l₂, h1, h2⟩
        cases l₁ with
        | nil => simp only [List.nil_append, List.cons.injEq, Prod.mk.injEq, true_and] at h1; exact h1.1
        | cons y l₁ =>
          simp only [List.cons_append, List.cons.injEq] at h1
          exact absurd (h2 y (by simp)) (by simp [← h1.1])

/-- A waveform code above 5 selects no generator, and every other code selects one (R75). -/
theorem waveformOf_none {w : Word} : waveformOf w = none ↔ 5 < w.toNat := by
  unfold waveformOf
  split
  case h_7 h0 h1 h2 h3 h4 h5 =>
    have g : ∀ n, w.toNat = n → n ≠ 0 ∧ n ≠ 1 ∧ n ≠ 2 ∧ n ≠ 3 ∧ n ≠ 4 ∧ n ≠ 5 := by
      rintro n rfl
      exact ⟨h0, h1, h2, h3, h4, h5⟩
    have := g _ rfl
    simp only [true_iff]
    omega
  all_goals simp [*]

/-! ### The quantiser -/

@[simp] theorem q16_fst (v : Num) (q : Tally) : (q16 v q).1 = quantise v := rfl

theorem q16_snd_of_not {v : Num} (q : Tally) (h : overRange v = false) : (q16 v q).2 = q := by simp [q16, h]

theorem overRange_false {v : Num} : overRange v = false ↔ -32767 ≤ v ∧ v ≤ 32767 := by
  simp [overRange, and_comm]

/-- The quantiser always returns a sample (R56). -/
theorem quantise_isSample (v : Num) : IsSample (quantise v) := by
  obtain ⟨h1, h2⟩ := clipNum_mem v
  constructor
  · calc -(sampleMax : Int) = truncNum ((-32767 : Int) : Num) := by rw [truncNum_intCast]; rfl
      _ ≤ quantise v := truncNum_mono (by exact_mod_cast h1)
  · calc quantise v ≤ truncNum ((32767 : Int) : Num) := truncNum_mono (by exact_mod_cast h2)
      _ = (sampleMax : Int) := by rw [truncNum_intCast]; rfl

/-- A sample is its own quantisation. -/
theorem quantise_intCast {n : Int} (h : IsSample n) : quantise (n : Num) = n := by
  have h1 : (-32767 : Num) ≤ n := by exact_mod_cast h.1
  have h2 : (n : Num) ≤ 32767 := by exact_mod_cast h.2
  rw [quantise, clipNum_of_mem ⟨h1, h2⟩, truncNum_intCast]

theorem overRange_intCast {n : Int} (h : IsSample n) : overRange (n : Num) = false :=
  overRange_false.mpr ⟨by exact_mod_cast h.1, by exact_mod_cast h.2⟩

theorem satSucc_toNat (n : Word) : (satSucc n).toNat = min (n.toNat + 1) (2 ^ 32 - 1) := by
  unfold satSucc
  split
  · next h => subst h; rfl
  · next h =>
    have h1 : n.toNat ≠ 2 ^ 32 - 1 := fun h' => h (BitVec.eq_of_toNat_eq (by rw [h']; rfl))
    have h2 := n.isLt
    rw [BitVec.toNat_add]
    show (n.toNat + 1) % 2 ^ 32 = _
    omega

/-! ### The output stream -/

@[simp] theorem Stream.start_out (s : State) : (Stream.start s).out = [] := rfl
@[simp] theorem Stream.start_q (s : State) : (Stream.start s).q = Tally.start s := rfl
@[simp] theorem Tally.start_clipped (s : State) : (Tally.start s).clipped = false := rfl
@[simp] theorem Tally.start_count (s : State) : (Tally.start s).count = s.clipcnt := rfl
@[simp] theorem Stream.copy_out (x : Int) (o : Stream) : (o.copy x).out = o.out ++ [x] := rfl
@[simp] theorem Stream.copy_q (x : Int) (o : Stream) : (o.copy x).q = o.q := rfl
@[simp] theorem Stream.push_out (v : Num) (o : Stream) : (o.push v).out = o.out ++ [quantise v] := rfl
@[simp] theorem Stream.push_q (v : Num) (o : Stream) :
    (o.push v).q = if overRange v then o.q.event else o.q := rfl

/-- The clipping record after `k` events since `q₀`: the flag, and the saturating count (R41, R56). -/
def Counted (q₀ : Tally) (k : Nat) (q : Tally) : Prop :=
  q.clipped = (q₀.clipped || decide (0 < k)) ∧ q.count.toNat = min (q₀.count.toNat + k) (2 ^ 32 - 1)

theorem Counted.zero (q : Tally) : Counted q 0 q := by
  have := q.count.isLt
  exact ⟨by simp, by omega⟩

theorem Counted.event {q₀ q : Tally} {k : Nat} (h : Counted q₀ k q) : Counted q₀ (k + 1) q.event := by
  refine ⟨by simp [Tally.event], ?_⟩
  rw [Tally.event, satSucc_toNat, h.2]
  omega

theorem Counted.push {q₀ : Tally} {k : Nat} {o : Stream} (v : Num) (h : Counted q₀ k o.q) :
    Counted q₀ (k + if overRange v then 1 else 0) (o.push v).q := by
  rw [Stream.push_q]
  split
  · exact h.event
  · exact h

/-! ### What each command can do -/

/-- `OSCSTEP` raises the first cause of its list, or draws one sample. -/
theorem runOscstep_cases (c : Config) (s : State) :
    (∃ e, firstCause (oscstepChecks s.params) = some e ∧ runOscstep c s = raise e s) ∨
    (∃ w, firstCause (oscstepChecks s.params) = none ∧ waveformOf s.params.wave = some w ∧
      runOscstep c s = finish false
        { s with
          oscout := oscOutput c w s.params.pw s.osc
          osc := oscAdvance w s.params.srate s.params.oscf s.osc }) := by
  unfold runOscstep
  split
  · next e h => exact .inl ⟨e, h, rfl⟩
  · next h hw =>
    have h5 := firstCause_none.mp h (decide (5 < s.params.wave.toNat), .waveform) (by simp [oscstepChecks])
    exact absurd (waveformOf_none.mp hw) (by simpa using h5)
  · next w h hw => exact .inr ⟨w, h, hw, rfl⟩

/-- `ENVEVAL` raises the first cause of its list, or evaluates the envelope. -/
theorem execEnveval_cases (s : State) :
    (∃ e, firstCause (envevalChecks s.params) = some e ∧ execEnveval s = .next (raise e s)) ∨
    (firstCause (envevalChecks s.params) = none ∧
      execEnveval s = .next (finish false { s with envout := env s.params s.params.envt })) := by
  unfold execEnveval
  split
  · next e h => exact .inl ⟨e, h, rfl⟩
  · next h => exact .inr ⟨h, rfl⟩

/-- The sample loop of `RENDER` (R120). -/
def renderLoop (c : Config) (w : Waveform) (s : State) (n : Nat) : VoiceLoop :=
  forRange n (voiceSample c w s.params) { osc := RenderState.fresh c, stream := Stream.start s }

/-- `RENDER` raises the first cause of its list, or stores what its sample loop gives. -/
theorem runRender_cases (c : Config) (d : Field8) (s : State) :
    (∃ e, firstCause (renderChecks c s.params) = some e ∧ runRender c d s = raise e s) ∨
    (∃ w, firstCause (renderChecks c s.params) = none ∧ waveformOf s.params.wave = some w ∧
      runRender c d s = storeResult d (renderLoop c w s (renderLength s.params).toNat).stream.out
        (renderLoop c w s (renderLength s.params).toNat).stream.q
        { s with osc := (renderLoop c w s (renderLength s.params).toNat).osc }) := by
  unfold runRender
  split
  · next e h => exact .inl ⟨e, h, rfl⟩
  · next h hw =>
    have h5 := firstCause_none.mp h (decide (5 < s.params.wave.toNat), .waveform) (by simp [renderChecks])
    exact absurd (waveformOf_none.mp hw) (by simpa using h5)
  · next w h hw => exact .inr ⟨w, h, hw, rfl⟩

/-- The sample loop of `MIX` (R130). -/
def mixLoop (src cnt : Field8) (s : State) (n : Nat) : Stream :=
  forRange n (fun i o => o.push (mixValue src cnt s i)) (Stream.start s)

/-- `MIX` raises the first cause of its list, or stores what its sample loop gives. -/
theorem runMix_cases (c : Config) (d src cnt : Field8) (s : State) :
    (∃ e, firstCause (mixChecks c src cnt s) = some e ∧ runMix c d src cnt s = raise e s) ∨
    (firstCause (mixChecks c src cnt s) = none ∧ runMix c d src cnt s =
      storeResult d (mixLoop src cnt s (mixLength src cnt s)).out (mixLoop src cnt s (mixLength src cnt s)).q s) := by
  unfold runMix
  split
  · next e h => exact .inl ⟨e, h, rfl⟩
  · next h => exact .inr ⟨h, rfl⟩

/-- The sample loop of `REVERB` (R140). -/
def reverbLoop (c : Config) (src : Field8) (s : State) (n : Nat) : Stream :=
  forRange n (reverbSample (reverbDelay c s.params).toNat s.params.rdecay (slotBuf s src.toNat)) (Stream.start s)

/-- `REVERB` raises the first cause of its list, or stores what its sample loop gives. -/
theorem runReverb_cases (c : Config) (d src : Field8) (s : State) :
    (∃ e, firstCause (reverbChecks c s.params) = some e ∧ runReverb c d src s = raise e s) ∨
    (firstCause (reverbChecks c s.params) = none ∧ runReverb c d src s =
      storeResult d (reverbLoop c src s (bufLen s src.toNat)).out (reverbLoop c src s (bufLen s src.toNat)).q s) := by
  unfold runReverb
  split
  · next e h => exact .inl ⟨e, h, rfl⟩
  · next h => exact .inr ⟨h, rfl⟩

/-- The sample loop of `LOWPASS` (R150). -/
def lowpassLoop (c : Config) (src : Field8) (s : State) (n : Nat) : FilterLoop :=
  forRange n (filterSample s.params.cutoff (lowpassFeedback c s.params) (slotBuf s src.toNat))
    { b0 := 0, b1 := 0, stream := Stream.start s }

/-- `LOWPASS` raises the first cause of its list, or stores what its sample loop gives. -/
theorem runLowpass_cases (c : Config) (d src : Field8) (s : State) :
    (∃ e, firstCause (lowpassChecks s.params) = some e ∧ runLowpass c d src s = raise e s) ∨
    (firstCause (lowpassChecks s.params) = none ∧ runLowpass c d src s =
      storeResult d (lowpassLoop c src s (bufLen s src.toNat)).stream.out
        (lowpassLoop c src s (bufLen s src.toNat)).stream.q s) := by
  unfold runLowpass
  split
  · next e h => exact .inl ⟨e, h, rfl⟩
  · next h => exact .inr ⟨h, rfl⟩

end Sys2Proof.Machine
end

