-- ==== Sys2Proof/Laws/Checks.lean ====
section
/-! SUPPORT. A command reports no error exactly when it is legal (R172, R175). -/

namespace Sys2Proof.Machine

theorem firstCause_append (l m : List (Bool × Cause)) : firstCause (l ++ m) = (firstCause l).or (firstCause m) := by
  induction l with
  | nil => rfl
  | cons x l ih => obtain ⟨b, c⟩ := x; cases b <;> simp [firstCause, ih]

theorem oscstepChecks_none {p : Params} : firstCause (oscstepChecks p) = none ↔ OscstepLegal p := by
  rw [firstCause_none]
  simp only [oscstepChecks, List.mem_cons, List.not_mem_nil, or_false, forall_eq_or_imp, forall_eq,
    decide_eq_false_iff_not, Bool.or_eq_false_iff, not_le, not_lt]
  exact ⟨fun ⟨a, b, c⟩ => ⟨a, b, c⟩, fun ⟨a, b, c⟩ => ⟨a, b, c⟩⟩

theorem envChecks_none {p : Params} : firstCause (envChecks p) = none ↔ EnvLegal p := by
  rw [firstCause_none]
  simp only [envChecks, List.mem_cons, List.not_mem_nil, or_false, forall_eq_or_imp, forall_eq,
    decide_eq_false_iff_not, Bool.or_eq_false_iff, not_lt, Bool.and_eq_false_iff]
  constructor
  · rintro ⟨⟨⟨⟨⟨a, b⟩, c⟩, d⟩, e⟩, f⟩
    exact ⟨a, b, c, ⟨d, e⟩, fun h => by simpa [h] using f⟩
  · rintro ⟨a, b, c, ⟨d, e⟩, f⟩
    refine ⟨⟨⟨⟨⟨a, b⟩, c⟩, d⟩, e⟩, ?_⟩
    by_cases h : p.noffEn = true
    · exact .inr (f h)
    · exact .inl (by simpa using h)

theorem envevalChecks_none {p : Params} : firstCause (envevalChecks p) = none ↔ EnvevalLegal p := by
  rw [envevalChecks, firstCause_append, Option.or_eq_none_iff, envChecks_none, firstCause_none]
  simp only [List.mem_cons, List.not_mem_nil, or_false, forall_eq, decide_eq_false_iff_not, not_lt]
  exact ⟨fun ⟨a, b⟩ => ⟨a, b⟩, fun ⟨a, b⟩ => ⟨a, b⟩⟩

theorem renderChecks_none {c : Config} {p : Params} : firstCause (renderChecks c p) = none ↔ RenderLegal c p := by
  rw [renderChecks, firstCause_append, Option.or_eq_none_iff, envChecks_none, firstCause_none]
  simp only [List.mem_cons, List.not_mem_nil, or_false, forall_eq_or_imp, forall_eq, Bool.or_eq_false_iff,
    decide_eq_false_iff_not, not_le, not_lt]
  exact ⟨fun ⟨⟨a, b, c, d, e, f⟩, g⟩ => ⟨a, b, c, d, e, f, g⟩, fun ⟨a, b, c, d, e, f, g⟩ => ⟨⟨a, b, c, d, e, f⟩, g⟩⟩

/-- `L` is at least the length of every source, and with `CNT ≥ 1` it is the length of one (R131). -/
theorem mixLength_spec (src cnt : Field8) (s : State) :
    (∀ k, k < cnt.toNat → bufLen s (src.toNat + k) ≤ mixLength src cnt s) ∧
    (cnt ≠ 0 → ∃ k, k < cnt.toNat ∧ bufLen s (src.toNat + k) = mixLength src cnt s) := by
  have key : ∀ n : Nat,
      (∀ k, k < n → bufLen s (src.toNat + k) ≤ forRange n (fun k m => max m (bufLen s (mixSource src k))) 0) ∧
      (n ≠ 0 → ∃ k, k < n ∧
        bufLen s (src.toNat + k) = forRange n (fun k m => max m (bufLen s (mixSource src k))) 0) := by
    intro n
    induction n with
    | zero => simp
    | succ n ih =>
      rw [forRange_succ, show mixSource src n = src.toNat + n from rfl]
      refine ⟨fun k hk => ?_, fun _ => ?_⟩
      · rcases Nat.lt_succ_iff_lt_or_eq.mp hk with h | rfl
        · exact (ih.1 k h).trans (le_max_left _ _)
        · exact le_max_right _ _
      · rcases le_total (forRange n (fun k m => max m (bufLen s (mixSource src k))) 0) (bufLen s (src.toNat + n))
          with h | h
        · exact ⟨n, by omega, by rw [max_eq_right h]⟩
        · rcases Nat.eq_zero_or_pos n with rfl | hn
          · exact ⟨0, by omega, by rw [max_eq_left h]; simpa using h⟩
          · obtain ⟨k, hk, he⟩ := ih.2 (by omega)
            exact ⟨k, by omega, by rw [max_eq_left h, he]⟩
  refine ⟨(key _).1, fun h => (key _).2 fun h0 => h (BitVec.eq_of_toNat_eq (by simpa using h0))⟩

theorem mixChecks_none {c : Config} {src cnt : Field8} {s : State} :
    firstCause (mixChecks c src cnt s) = none ↔ MixLegal c src cnt s := by
  rw [firstCause_none]
  simp only [mixChecks, List.mem_cons, List.not_mem_nil, or_false, forall_eq_or_imp, forall_eq,
    decide_eq_false_iff_not, not_lt]
  obtain ⟨h1, h2⟩ := mixLength_spec src cnt s
  constructor
  · rintro ⟨a, b, d⟩
    exact ⟨a, b, fun k hk => (Nat.mul_le_mul_left _ (h1 k hk)).trans d⟩
  · rintro ⟨a, b, d⟩
    obtain ⟨k, hk, he⟩ := h2 b
    exact ⟨a, b, he ▸ d k hk⟩

theorem reverbChecks_none {c : Config} {p : Params} : firstCause (reverbChecks c p) = none ↔ ReverbLegal c p := by
  rw [firstCause_none]
  simp only [reverbChecks, List.mem_cons, List.not_mem_nil, or_false, forall_eq_or_imp, forall_eq,
    decide_eq_false_iff_not, not_le, not_lt]
  exact ⟨fun ⟨a, b⟩ => ⟨a, b⟩, fun ⟨a, b⟩ => ⟨a, b⟩⟩

theorem lowpassChecks_none {p : Params} : firstCause (lowpassChecks p) = none ↔ LowpassLegal p := by
  rw [firstCause_none]
  simp only [lowpassChecks, List.mem_cons, List.not_mem_nil, or_false, forall_eq, decide_eq_false_iff_not,
    Bool.or_eq_false_iff, not_lt]
  exact ⟨fun h => ⟨h⟩, fun ⟨h⟩ => h⟩

end Sys2Proof.Machine
end

