-- ==== Sys2Proof/Laws/Decode.lean ====
section
/-! SUPPORT. The command word and its fields as numbers. -/

namespace Sys2Proof

theorem append_toNat {m n : Nat} (x : BitVec m) (y : BitVec n) : (x ++ y).toNat = x.toNat * 2 ^ n + y.toNat := by
  rw [BitVec.toNat_append, ← Nat.shiftLeft_add_eq_or_of_lt y.isLt, Nat.shiftLeft_eq]

/-- The command word of format `C` as a number (R70). -/
theorem formatC_toNat (op d a n : Field8) :
    (formatC op d a n).toNat = n.toNat * 2 ^ 24 + a.toNat * 2 ^ 16 + d.toNat * 2 ^ 8 + op.toNat := by
  unfold formatC
  rw [append_toNat, append_toNat, append_toNat]
  ring

theorem opField_toNat (w : Word) : (opField w).toNat = w.toNat % 2 ^ 8 := by simp [opField]
theorem dstField_toNat (w : Word) : (dstField w).toNat = w.toNat / 2 ^ 8 % 2 ^ 8 := by
  simp [dstField, Nat.shiftRight_eq_div_pow]
theorem srcField_toNat (w : Word) : (srcField w).toNat = w.toNat / 2 ^ 16 % 2 ^ 8 := by
  simp [srcField, Nat.shiftRight_eq_div_pow]
theorem cntField_toNat (w : Word) : (cntField w).toNat = w.toNat / 2 ^ 24 % 2 ^ 8 := by
  simp [cntField, Nat.shiftRight_eq_div_pow]

theorem opField_formatC (op d a n : Field8) : opField (formatC op d a n) = op := by
  have := op.isLt
  apply BitVec.eq_of_toNat_eq; rw [opField_toNat, formatC_toNat]; omega
theorem dstField_formatC (op d a n : Field8) : dstField (formatC op d a n) = d := by
  have := op.isLt; have := d.isLt
  apply BitVec.eq_of_toNat_eq; rw [dstField_toNat, formatC_toNat]; omega
theorem srcField_formatC (op d a n : Field8) : srcField (formatC op d a n) = a := by
  have := op.isLt; have := d.isLt; have := a.isLt
  apply BitVec.eq_of_toNat_eq; rw [srcField_toNat, formatC_toNat]; omega
theorem cntField_formatC (op d a n : Field8) : cntField (formatC op d a n) = n := by
  have := op.isLt; have := d.isLt; have := a.isLt; have := n.isLt
  apply BitVec.eq_of_toNat_eq; rw [cntField_toNat, formatC_toNat]; omega

/-- A word is the assembly of its fields (R70). -/
theorem formatC_fields (w : Word) : formatC (opField w) (dstField w) (srcField w) (cntField w) = w := by
  have := w.isLt
  apply BitVec.eq_of_toNat_eq
  rw [formatC_toNat, opField_toNat, dstField_toNat, srcField_toNat, cntField_toNat]
  omega

end Sys2Proof
end

