-- ==== Sys2Proof/Laws/PerInstr.lean ====
section
/-! SUPPORT. The family `OpcodeByte`: the low byte of a command's word is its opcode (R70, R72), one lemma per
command. -/

namespace Sys2Proof.Laws.OpcodeByte

/-- The low byte of the encoding is the opcode of R72. -/
def Statement (i : Instr) : Prop := opField (encode i) = i.opcode

theorem nop : Statement .nop := opField_formatC _ _ _ _
theorem oscinit : Statement .oscinit := opField_formatC _ _ _ _
theorem oscstep : Statement .oscstep := opField_formatC _ _ _ _
theorem enveval : Statement .enveval := opField_formatC _ _ _ _
theorem render (dst : Field8) : Statement (.render dst) := opField_formatC _ _ _ _
theorem mix (dst src cnt : Field8) : Statement (.mix dst src cnt) := opField_formatC _ _ _ _
theorem reverb (dst src : Field8) : Statement (.reverb dst src) := opField_formatC _ _ _ _
theorem lowpass (dst src : Field8) : Statement (.lowpass dst src) := opField_formatC _ _ _ _

end Sys2Proof.Laws.OpcodeByte
end

