-- ==== Sys2Proof/Tests/Slice0.lean ====
section
/-! SUPPORT. Tests. Expected values are those of spec/95_test_vectors.md (the vector is named at each test), words are
written out from the fields of R70; a witness shows, for each statement with hypotheses, a state and operands that
meet them. -/

namespace Sys2Proof.Machine

/-! ### Fixtures -/

/-- The reference values of R11, for tests only: no statement and no definition of the machine mentions it. Only the
exact values of `SIN` and `POW2C` are used (spec/95_test_vectors.md, Conventions), so the free ones are arbitrary. -/
def refConfig : Config where
  sinFree _ := 0
  pow2cFree _ := 1
  tieUp n := n % 2 == 1
  seedFree := 0xACE1
  noiseFree := 0
  epsFree := 1 / 1000000
  bufCap := 2 ^ 24
  resCap := 2 ^ 32

/-- The state after reset under the reference values, with some parameters and slots. -/
def refState (p : Params) (m : Memory) : State :=
  { State.reset with params := p, osc := RenderState.fresh refConfig, slots := m }

/-- What a command stored in slot `d`, with `STATUS` and `CLIPCNT`. -/
def stored (d : Nat) (s : State) : Buffer × Word × Word := (slotBuf s d, s.status, s.clipcnt)

/-- The registers of an outcome, when it is a next state. -/
def readAfter (r : Reg) (o : Host.Outcome State Fault Refusal) : Option Value :=
  match o with
  | .next t => readReg r t
  | .fault _ => none
  | .refused _ => none

/-- What the host has been given, when the outcome is a next state. -/
def repliesOf (o : Host.Outcome State Fault Refusal) : Option (List Reply) :=
  match o with
  | .next t => some t.outbox
  | .fault _ => none
  | .refused _ => none

/-! ### Well-formedness -/

theorem test_wf_mix_last_slots : (Instr.mix 0 255 1).wf = true := by decide
theorem test_wf_refuses_mix_past_the_last_slot : (Instr.mix 0 255 2).wf = false := by decide
theorem test_wf_refuses_mix_from_two : (Instr.mix 0 2 255).wf = false := by decide

/-! ### Decoding: `CNT`, `SRC`, `DST`, `OP`, eight bits each (R70, R72, V-ENC-1, V-ENC-2) -/

theorem test_decode_nop : decode 0b00000000_00000000_00000000_00000000#32 = .ok .nop := by decide
theorem test_decode_oscinit : decode 0b00000000_00000000_00000000_00000001#32 = .ok .oscinit := by decide
theorem test_decode_oscstep : decode 0b00000000_00000000_00000000_00000010#32 = .ok .oscstep := by decide
theorem test_decode_enveval : decode 0b00000000_00000000_00000000_00000011#32 = .ok .enveval := by decide
theorem test_decode_render : decode 0b00000000_00000000_11111111_00000100#32 = .ok (.render 255) := by decide
theorem test_decode_mix : decode 0b00000010_00000001_00000100_00000101#32 = .ok (.mix 4 1 2) := by decide
theorem test_decode_reverb : decode 0b00000000_00000001_00000010_00000110#32 = .ok (.reverb 2 1) := by decide
theorem test_decode_lowpass : decode 0b00000000_00000010_00000011_00000111#32 = .ok (.lowpass 3 2) := by decide
theorem test_decode_reserved_first : decode 0xFFFFFFFF = .error .reservedOpcode := by decide
theorem test_decode_unused_field : decode 0x00010004 = .error .unusedField := by decide
theorem test_decode_mix_range : decode 0xFF020005 = .error .mixRange := by decide
theorem test_encode_mix : encode (.mix 255 0 255) = 0xFF00FF05 := by decide

/-! ### Commands -/

/-- V-SYS-1 -/
theorem test_nop_clears_status :
    readAfter .status (execNop { State.reset with status := 0x201 }) = some (.word 0) := by decide

/-- R90 -/
theorem test_oscinit_clears_the_phase :
    readAfter .phase (execOscinit { State.reset with osc := { phase := 1 / 2, lfsr := 7, nhold := 1 } }) =
      some (.num 0) := by decide

/-- V-OSC-6, the eighth call: the value before the draw is returned. -/
theorem test_oscstep_noise_draws_after_the_sample :
    (let t := runOscstep refConfig
      { refState { Params.reset with wave := 5, srate := 8, oscf := 1 } [] with
        osc := { phase := 7 / 8, lfsr := 0xACE1, nhold := 0 } }
     (t.oscout, t.osc)) = (0, { phase := 0, lfsr := 0x5670, nhold := -665 / 2048 }) := by decide +kernel

/-- V-OSC-3: the pulse is low at phase exactly `PW`. -/
theorem test_oscstep_pulse_edge :
    (runOscstep refConfig { refState { Params.reset with wave := 2, pw := 1 / 4, srate := 8, oscf := 1 } [] with
      osc := { phase := 1 / 4, lfsr := 0xACE1, nhold := 0 } }).oscout = -1 := by decide +kernel

/-- V-ENV-2: half-way through the release of a note released inside Decay. -/
theorem test_enveval_release :
    readAfter .envout (execEnveval { State.reset with params := { Params.reset with
      atk := 1 / 100, dcy := 1 / 10, sus := 7 / 10, rel := 1 / 5, noff := 1 / 10, ctrl := 1, envt := 3 / 20 } }) =
      some (.num (219 / 400)) := by decide +kernel

/-- V-ENV-5: a negative release is checked although `CTRL = 0`. -/
theorem test_enveval_checks_unused_release :
    readAfter .status (execEnveval { State.reset with params := { Params.reset with rel := -1 } }) =
      some (.word 0x701) := by decide +kernel

/-- V-VOICE-7 -/
theorem test_render_vibrato :
    stored 1 (runRender refConfig 1 (refState { Params.reset with
      wave := 3, freq := 1, amp := 1, sus := 1, srate := 8, dur := 1, vrate := 2, vdepth := 1200 } [])) =
      ([-32767, -24575, -8191, 0, 4095, 12287, 28671, -28671], 0, 0) := by decide +kernel

/-- V-VOICE-4 -/
theorem test_render_envelope :
    stored 1 (runRender refConfig 1 (refState { Params.reset with
      wave := 1, freq := 2, amp := 1, atk := 1 / 4, dcy := 1 / 4, sus := 1 / 2, rel := 1 / 4, noff := 5 / 8,
      ctrl := 1, srate := 8, dur := 9 / 8 } [])) =
      ([0, 16383, -32767, -24575, 16383, 16383, -8191, 0, 0], 0, 0) := by decide +kernel

/-- The slots of spec/95_test_vectors.md, section 2.5. -/
def mixSlots : Memory := [(1, [100, -101, 32767, -32767, 7]), (2, [50, -50, 32767])]

/-- V-MIX-3 -/
theorem test_mix_clips :
    stored 0 (runMix refConfig 0 1 2 (refState { Params.reset with mgain := 3 } mixSlots)) =
      ([225, -226, 32767, -32767, 10], 8, 2) := by decide +kernel

/-- V-MIX-8: the destination is a source. -/
theorem test_mix_overlap :
    stored 1 (runMix refConfig 1 1 2 (refState Params.reset mixSlots)) =
      ([75, -75, 32767, -16383, 3], 0, 0) := by decide +kernel

/-- V-REV-3: the tap reads the quantised output. -/
theorem test_reverb_tap :
    stored 0 (runReverb refConfig 0 1 (refState { Params.reset with srate := 1000, rdelay := 1, rdecay := 3 / 2 }
      [(1, [3, 0, 0, 0, 0, 0])])) = ([3, 4, 6, 9, 13, 19], 0, 0) := by decide +kernel

/-- V-REV-7: a tie, to even. -/
theorem test_reverb_delay_tie :
    (reverbDelay refConfig { Params.reset with rdelay := 25 / 441 }, reverbDelay refConfig { Params.reset with
      rdelay := 5 / 441 }) = (2, 0) := by decide +kernel

/-- V-LPF-5: the update is sequential. -/
theorem test_lowpass_resonance :
    stored 0 (runLowpass { refConfig with epsFree := 1 / 2 } 0 1 (refState { Params.reset with
      cutoff := 1 / 2, reso := 1 / 2 } [(1, [1000, 1000, 1000, 1000, -1000, 0])])) =
      ([250, 562, 828, 1003, 590, 236], 0, 0) := by decide +kernel

/-- V-LPF-6: the running states are not clipped. -/
theorem test_lowpass_clips :
    stored 0 (runLowpass { refConfig with epsFree := 1 / 2 } 0 1 (refState { Params.reset with
      cutoff := 1 / 2, reso := 2 } [(1, [32767, 32767, 32767, 32767, 0, 0])])) =
      ([8191, 24575, 32767, 32767, 32767, 32767], 8, 4) := by decide +kernel

/-- V-OSC-9 -/
theorem test_lfsr_steps :
    [1, 0x8000, 0xFFFF, 4, 0x20, 2, 0xACE1].map lfsrNext = [0x8000, 0x4000, 0x7FFF, 0x8002, 0x8010, 1, 0x5670] := by
  decide

/-- V-EXC-3 -/
theorem test_clipcnt_saturates : satSucc 0xFFFFFFFF = 0xFFFFFFFF := by decide

/-! ### The step and the host's transactions -/

/-- V-RST-2: a word of the opcode table runs as the first command after reset. -/
theorem test_first_command_after_reset :
    readAfter .status (step (State.reset.withFetchWord 32 0x00010006)) = some (.word 0xA01) := by decide +kernel

/-- V-SYS-2 -/
theorem test_write_ctrl_keeps_bit_0 :
    readAfter .ctrl (perform (.wr 14 (.word 0xFFFFFFFF)) State.reset) = some (.word 1) := by decide

/-- V-SYS-3 -/
theorem test_read_bytes :
    repliesOf (perform (.read 0 .bytes) (refState Params.reset [(0, [-32767, 0, 1, -1])])) =
      some [.bytes [0x01, 0x80, 0x00, 0x00, 0x01, 0x00, 0xFF, 0xFF]] := by decide +kernel

/-- V-SYS-5 -/
theorem test_load_odd_bytes :
    readAfter .status (perform (.load 3 (.bytes [0x4B, 0x00, 0xB5])) State.reset) = some (.word 0xD01) := by decide

/-- V-SYS-6: the first step of `PAD` reads, and its next action loads the list with the zeros. -/
theorem test_pad :
    perform (.pad 2 2 3) (refState Params.reset [(2, [5, -5])]) =
      .next { refState Params.reset [(2, [5, -5])] with
        inbox := [.load 2 (.samples [0, 0, 0, 5, -5])]
        outbox := [.samples [5, -5]] } := rfl

/-- R46 -/
theorem test_write_of_status_is_refused :
    perform (.wr 27 (.word 0)) State.reset = .refused (.writeToReadOnly .status) := rfl

/-! ### Witnesses: each statement's hypotheses are met -/

theorem envLegal_reset : EnvLegal Params.reset :=
  ⟨by decide, by decide, by decide, by decide +kernel, by decide⟩

theorem renderLegal_reset (c : Config) : RenderLegal c Params.reset := by
  refine ⟨by decide +kernel, by decide, by decide +kernel, ?_, by decide, by decide +kernel, envLegal_reset⟩
  show ⌊(0 : ℚ) * 44100⌋ ≤ _
  simp

theorem mixLegal_reset (c : Config) : MixLegal c 255 1 State.reset :=
  ⟨by decide, by decide, fun _ _ => Nat.zero_le _⟩

/-- `RDELAY = 1` at `SRATE = 1000` is a delay of exactly one sample, whatever `ROUND` does at a tie. -/
def echoParams : Params := { Params.reset with srate := 1000, rdelay := 1 }

theorem reverbLegal_echo (c : Config) : ReverbLegal c echoParams := by
  refine ⟨by decide +kernel, ?_⟩
  show 1 ≤ c.round (1 * 1000 / 1000)
  rw [Config.round_below] <;> norm_num

theorem lowpassLegal_ends :
    LowpassLegal Params.reset ∧ LowpassLegal { Params.reset with cutoff := 0 } :=
  ⟨⟨by decide +kernel⟩, ⟨by decide +kernel⟩⟩

theorem witness_DecodeEncodeRoundTrip : (Instr.mix 255 255 1).wf = true ∧ Instr.wf .nop = true := by decide
theorem witness_DecodedWordIsTheEncoding : decode 0x01FF0005 = .ok (.mix 0 255 1) := by decide
theorem witness_DecoderFollowsTheOpcodeMap : 8 ≤ ((0x00000008 : Word) &&& 0x000000FF).toNat := by decide

theorem witness_IllegalWordsRaiseInOrder :
    (8 ≤ (0x00000008 : Word).toNat % 2 ^ 8) ∧
    ((0x00000100 : Word).toNat % 2 ^ 8 ≤ 3 ∧ (0x00000100 : Word).toNat / 2 ^ 8 ≠ 0) ∧
    ((0x00010004 : Word).toNat % 2 ^ 8 = 4 ∧ (0x00010004 : Word).toNat / 2 ^ 16 ≠ 0) ∧
    ((0x01000007 : Word).toNat % 2 ^ 8 = 7 ∧ (0x01000007 : Word).toNat / 2 ^ 24 ≠ 0) ∧
    ((0x02FF0005 : Word).toNat % 2 ^ 8 = 5 ∧
      256 < (0x02FF0005 : Word).toNat / 2 ^ 16 % 2 ^ 8 + (0x02FF0005 : Word).toNat / 2 ^ 24) ∧
    ((0xFF010005 : Word).toNat % 2 ^ 8 = 5 ∧
      ¬256 < (0xFF010005 : Word).toNat / 2 ^ 16 % 2 ^ 8 + (0xFF010005 : Word).toNat / 2 ^ 24) := by decide

theorem witness_StepPerformsTheHostsNextAction :
    { State.reset with inbox := [HostAction.reset] }.inbox = [HostAction.reset] ∧ State.reset.inbox = [] := ⟨rfl, rfl⟩

theorem witness_StepRunsTheDecodedCommand :
    { State.reset with inbox := [.wr 29 (.word 4)] }.inbox = .wr 29 (.word 4) :: [] ∧
    decode 4 = .ok (.render 0) ∧ decode 8 = .error .reservedOpcode := by decide

theorem witness_PlacedWordRunsNext : decodeTableWord 32 0x00FFFF07 = some (.lowpass 255 255) := by decide

theorem witness_NopCompletes : (0x00000100 : Word).toNat % 2 ^ 8 = 0 ∧ (0x00000100 : Word) ≠ 0 := by decide
theorem witness_OscinitCompletes : (0x01000001 : Word).toNat % 2 ^ 8 = 1 ∧ (0x01000001 : Word) ≠ 1 := by decide

/-- One state for each waveform; the noise register is drawn (`q = 1`), and is not. -/
theorem witness_OscstepCompletes :
    (∀ w : Fin 6, OscstepLegal { Params.reset with wave := BitVec.ofNat 32 w }) ∧
    ((5 : Word) = 5 ∧ (1 : ℚ) ≤ 1 / 2 + |4| / 8) ∧ ¬(1 : ℚ) ≤ 1 / 2 + |3| / 8 := by
  refine ⟨fun w => ⟨(renderLegal_reset refConfig).srate, (renderLegal_reset refConfig).pw, ?_⟩, ⟨rfl, by norm_num⟩, by norm_num⟩
  revert w
  decide

theorem witness_EnvevalCompletes : EnvevalLegal Params.reset := ⟨envLegal_reset, by decide⟩

/-- A voice of eight samples, with an attack. -/
def eightParams : Params := { Params.reset with amp := 1, atk := 1, sus := 1, srate := 8, dur := 1 }

/-- It is legal in every configuration whose `BUF_CAP` is at least 8. -/
theorem renderLegal_eight (c : Config) (h : 8 ≤ c.bufCap) : RenderLegal c eightParams := by
  refine ⟨by decide +kernel, by decide +kernel, by decide +kernel, ?_, by decide, by decide +kernel,
    by decide +kernel, by decide +kernel, by decide +kernel, by decide +kernel, by decide +kernel⟩
  show ⌊(1 : ℚ) * 8⌋ ≤ (c.bufCap : Int)
  rw [one_mul, show (8 : ℚ) = ((8 : Int) : ℚ) from rfl, Int.floor_intCast]
  exact_mod_cast h

/-- With no assumption on `BUF_CAP` only an empty voice is sure to be legal; from 8 on one of eight samples is. -/
theorem witness_RenderCompletes :
    (RenderLegal Config.machine Params.reset ∧ Memory.wf State.reset.slots = true) ∧
    (8 ≤ Config.machine.bufCap → RenderLegal Config.machine eightParams) ∧ RenderLegal refConfig eightParams :=
  ⟨⟨renderLegal_reset _, rfl⟩, renderLegal_eight _, renderLegal_eight _ (by decide)⟩

theorem witness_MixCompletes : MixLegal Config.machine 255 1 State.reset ∧ Memory.wf State.reset.slots = true :=
  ⟨mixLegal_reset _, rfl⟩
theorem witness_ReverbCompletes : ReverbLegal Config.machine echoParams ∧ Memory.wf mixSlots = true :=
  ⟨reverbLegal_echo _, rfl⟩
theorem witness_LowpassCompletes : LowpassLegal Params.reset ∧ Memory.wf mixSlots = true := ⟨lowpassLegal_ends.1, rfl⟩

/-- For each clause, a state in which its condition holds and no earlier one does. -/
theorem witness_OscstepErrorsInOrder :
    (let p := { Params.reset with srate := 0 }; p.srate ≤ 0) ∧
    (let p := { Params.reset with pw := 1 }; ¬p.srate ≤ 0 ∧ (p.pw ≤ 0 ∨ 1 ≤ p.pw)) ∧
    (let p := { Params.reset with wave := 6 }; ¬p.srate ≤ 0 ∧ ¬(p.pw ≤ 0 ∨ 1 ≤ p.pw) ∧ 5 < p.wave.toNat) := by
  decide +kernel

theorem witness_EnvevalErrorsInOrder :
    (let p := { Params.reset with sus := 2 }; p.atk < 0 ∨ p.dcy < 0 ∨ p.rel < 0 ∨ p.sus < 0 ∨ 1 < p.sus) ∧
    (let p := { Params.reset with noff := -1, ctrl := 1 }
     ¬(p.atk < 0 ∨ p.dcy < 0 ∨ p.rel < 0 ∨ p.sus < 0 ∨ 1 < p.sus) ∧ p.ctrl.getLsbD 0 = true ∧ p.noff < 0) ∧
    (let p := { Params.reset with envt := -1 / 2 }
     ¬(p.atk < 0 ∨ p.dcy < 0 ∨ p.rel < 0 ∨ p.sus < 0 ∨ 1 < p.sus) ∧ ¬(p.ctrl.getLsbD 0 = true ∧ p.noff < 0) ∧
      p.envt < 0) := by decide +kernel

/-- For each clause but those below, parameters in which its condition holds and no earlier one does. Where the clause of
`BUF_CAP` is an earlier one, `DUR` is 0, so it fails for every `BUF_CAP`. -/
theorem witness_RenderErrorsInOrder_each :
    (let p := { Params.reset with srate := 0 }; p.srate ≤ 0) ∧
    (let p := { Params.reset with dur := -1 }; ¬p.srate ≤ 0 ∧ p.dur < 0) ∧
    (let p := { Params.reset with pw := 1 }; ¬p.srate ≤ 0 ∧ ¬p.dur < 0 ∧ (p.pw ≤ 0 ∨ 1 ≤ p.pw)) ∧
    (let p := { Params.reset with wave := 6 }
     (¬p.srate ≤ 0 ∧ ¬p.dur < 0 ∧ ¬(p.pw ≤ 0 ∨ 1 ≤ p.pw)) ∧ ¬(Config.machine.bufCap : Int) < ⌊p.dur * p.srate⌋ ∧
      5 < p.wave.toNat) ∧
    (let p := { Params.reset with amp := 3 / 2 }
     (¬p.srate ≤ 0 ∧ ¬p.dur < 0 ∧ ¬(p.pw ≤ 0 ∨ 1 ≤ p.pw)) ∧ ¬(Config.machine.bufCap : Int) < ⌊p.dur * p.srate⌋ ∧
      ¬5 < p.wave.toNat ∧ (p.amp < 0 ∨ 1 < p.amp)) ∧
    (let p := { Params.reset with sus := 2 }
     (¬p.srate ≤ 0 ∧ ¬p.dur < 0 ∧ ¬(p.pw ≤ 0 ∨ 1 ≤ p.pw)) ∧ ¬(Config.machine.bufCap : Int) < ⌊p.dur * p.srate⌋ ∧
      ¬5 < p.wave.toNat ∧ ¬(p.amp < 0 ∨ 1 < p.amp) ∧
      (p.atk < 0 ∨ p.dcy < 0 ∨ p.rel < 0 ∨ p.sus < 0 ∨ 1 < p.sus)) := by
  have h := not_lt.mpr (renderLegal_reset Config.machine).length
  exact ⟨by decide +kernel, by decide +kernel, by decide +kernel, ⟨by decide +kernel, h, by decide⟩,
    ⟨by decide +kernel, h, by decide, by decide +kernel⟩,
    ⟨by decide +kernel, h, by decide, by decide +kernel, by decide +kernel⟩⟩

/-- The clause of `BUF_CAP`, for every value of it, and the last clause: all earlier conditions fail. -/
theorem witness_RenderErrorsInOrder :
    (let p := { Params.reset with srate := 1, dur := (Config.machine.bufCap : ℚ) + 1 }
     ¬p.srate ≤ 0 ∧ ¬p.dur < 0 ∧ ¬(p.pw ≤ 0 ∨ 1 ≤ p.pw) ∧ (Config.machine.bufCap : Int) < ⌊p.dur * p.srate⌋) ∧
    (let p := { Params.reset with noff := -1, ctrl := 1 }
     ¬p.srate ≤ 0 ∧ ¬p.dur < 0 ∧ ¬(p.pw ≤ 0 ∨ 1 ≤ p.pw) ∧ ¬(Config.machine.bufCap : Int) < ⌊p.dur * p.srate⌋ ∧
      ¬5 < p.wave.toNat ∧ ¬(p.amp < 0 ∨ 1 < p.amp) ∧
      ¬(p.atk < 0 ∨ p.dcy < 0 ∨ p.rel < 0 ∨ p.sus < 0 ∨ 1 < p.sus) ∧ p.ctrl.getLsbD 0 = true ∧ p.noff < 0) := by
  have h := renderLegal_reset Config.machine
  refine ⟨⟨by norm_num, ?_, by decide +kernel, ?_⟩, by decide +kernel, by decide +kernel, by decide +kernel,
    not_lt.mpr h.length, by decide, by decide +kernel, by decide +kernel, by decide, by decide +kernel⟩
  · exact not_lt.mpr (by positivity)
  · show _ < ⌊((Config.machine.bufCap : ℚ) + 1) * 1⌋
    rw [mul_one, Int.lt_floor_iff]
    push_cast
    exact le_refl _

/-- A source of one sample more than `RES_CAP`, whatever that is. -/
theorem witness_MixErrorsInOrder :
    256 < (255 : Field8).toNat + (2 : Field8).toNat ∧
    (¬256 < (255 : Field8).toNat + (0 : Field8).toNat ∧ (0 : Field8) = 0) ∧
    (let s := { State.reset with slots := [(0, List.replicate (Config.machine.resCap + 1) 0)] }
     Config.machine.resCap < (1 : Field8).toNat * bufLen s ((0 : Field8).toNat + 0)) := by
  refine ⟨by decide, by decide, ?_⟩
  simp [bufLen, slotBuf, Memory.get]

theorem witness_EffectErrorsInOrder :
    (let p := { Params.reset with srate := -1 }; p.srate ≤ 0) ∧
    (¬Params.reset.srate ≤ 0 ∧ Config.machine.round (Params.reset.rdelay * Params.reset.srate / 1000) < 1) ∧
    (let p := { Params.reset with cutoff := 3 / 2 }; p.cutoff < 0 ∨ 1 < p.cutoff) := by
  refine ⟨by decide +kernel, ⟨by decide +kernel, ?_⟩, by decide +kernel⟩
  show Config.machine.round (0 * 44100 / 1000) < 1
  rw [Config.round_below] <;> norm_num

theorem witness_StatusIsLegalAfterEveryCommand : ∃ t, exec .nop State.reset = .next t := ⟨_, rfl⟩

/-- A command that stores, in a state with slots: slot 2 is none of its destination. -/
theorem witness_CommandsWriteOnlyTheirRegisters :
    ∃ t, Memory.wf (refState Params.reset mixSlots).slots = true ∧
      exec (.lowpass 1 1) (refState Params.reset mixSlots) = .next t ∧ storeSlot (.lowpass 1 1) ≠ some 2 :=
  ⟨_, rfl, rfl, by decide⟩

theorem witness_OnlyResetLowersClipcnt :
    ∃ t, step (State.reset.withFetchWord 32 0) = .next t ∧
      (State.reset.withFetchWord 32 0).inbox.head? ≠ some .reset := ⟨_, rfl, by decide⟩

theorem witness_ResultDoesNotDependOnTheDestination :
    MixLegal Config.machine 255 1 State.reset ∧ ReverbLegal Config.machine echoParams ∧ LowpassLegal Params.reset ∧
    (∀ i, i = Instr.mix 0 255 1 ∨ i = Instr.reverb 0 1 ∨ i = Instr.lowpass 0 1 → ∃ t, exec i State.reset = .next t) := by
  refine ⟨mixLegal_reset _, reverbLegal_echo _, lowpassLegal_ends.1, ?_⟩
  rintro i (rfl | rfl | rfl) <;> exact ⟨_, rfl⟩

/-- A state that is not the reset state, with an action to perform. -/
theorem witness_StepKeepsTheInvariant :
    ∃ s t, Inv s ∧ step s = .next t ∧ s.inbox ≠ [] := by
  refine ⟨{ State.reset with
      osc := { phase := 1 / 2, lfsr := 1, nhold := 1 }
      oscout := -1
      envout := 1
      status := 8
      inbox := [issueAction 4] }, _, ⟨rfl, fun k x hx => ?_, fun k => Nat.zero_le _, ?_, by decide, ?_, ?_, ?_, by decide,
      ?_⟩, rfl, by decide⟩
  · exact absurd hx (by simp [slotBuf, State.reset])
  all_goals first | (norm_num; done) | (constructor <;> decide)

theorem witness_SafeRunsAreNeverRefused :
    SafeRun { State.reset with
      inbox := [.wr 0 (.word 7), .wr 29 (.word 0xFFFFFFFF), .rd 28, .read 255 .bytes, .load 0 (.samples []),
        .pad 0 255 9, .reset] } := by
  intro a ha
  simp only [List.mem_cons, List.not_mem_nil, or_false] at ha
  rcases ha with rfl | rfl | rfl | rfl | rfl | rfl | rfl
  · exact ⟨.wave, rfl, rfl, rfl⟩
  · exact ⟨.cmd, rfl, rfl, rfl⟩
  · show (28 : Fin 32).toNat ≤ 28
    decide
  all_goals trivial

/-- Functions with the named properties: those of the reference values. -/
theorem witness_SinAndPow2cHaveTheNamedProperties :
    SinProperties refConfig.sin ∧ Pow2cProperties refConfig.pow2c := by
  refine ⟨⟨fun x => ?_, by decide +kernel, fun x => ?_, by decide +kernel, by decide +kernel⟩, fun x => ?_,
    fun k => ?_⟩
  · unfold Config.sin
    split
    · next v h =>
      unfold sinExact at h
      split_ifs at h <;> simp only [Option.some.injEq] at h <;> subst h <;> norm_num
    · constructor <;> simp
  · rw [← fracNum_eq, Config.sin, Config.sin, fracNum_fracNum]
  · unfold Config.pow2c
    split_ifs with _ h
    · exact pow2Int_pos _
    · exact h
    · norm_num
  · rw [Config.pow2c, show 1200 * (k : ℚ) / 1200 = k by ring]
    simp [pow2Int_eq_zpow]

theorem witness_QuantiserClipsTruncatesAndCounts : (32767 : ℚ) < |-32768| ∧ |(-32767 : ℚ)| ≤ 32767 := by norm_num

theorem witness_OscillatorStaysInRange :
    let s := { State.reset with osc := { phase := 0, lfsr := 1, nhold := -1 } }
    OscstepLegal s.params ∧ 0 ≤ s.osc.phase ∧ s.osc.phase < 1 ∧ -1 ≤ s.osc.nhold ∧ s.osc.nhold ≤ 1 ∧
      s.params.oscf = 0 :=
  ⟨⟨by decide +kernel, by decide +kernel, by decide⟩, by norm_num, by norm_num, by norm_num, by norm_num, rfl⟩

theorem witness_NegativeFrequencyIsItsAbsoluteValue : |(-2 : ℚ)| = |2| := by norm_num

theorem witness_ZeroFrequencyHoldsTheOutput :
    OscstepLegal State.reset.params ∧ 0 ≤ State.reset.osc.phase ∧ State.reset.osc.phase < 1 ∧
      State.reset.params.oscf = 0 :=
  ⟨⟨by decide +kernel, by decide +kernel, by decide⟩, by decide, by decide +kernel, rfl⟩

theorem witness_ShiftRegisterHasFullPeriod : (1 : BitVec 16) ≠ 0 ∧ (0 < 65534 ∧ 65534 < 65535) ∧
    (0xFFFF : BitVec 16) ≠ 0 ∧ 14 < 15 := by decide

/-- One envelope for all the statements about it: attack 1, decay 1, sustain 1/2, note-off at 3, release 1. -/
def pluckParams : Params :=
  { Params.reset with atk := 1, dcy := 1, sus := 1 / 2, rel := 1, noff := 3, ctrl := 1 }

theorem envLegal_pluck : EnvLegal pluckParams :=
  ⟨by decide +kernel, by decide +kernel, by decide +kernel, by decide +kernel, by decide +kernel⟩

theorem witness_EnvelopeStaysInTheUnitInterval :
    EnvLegal pluckParams ∧ pluckParams.noffEn = true ∧ pluckParams.noff + pluckParams.rel ≤ 4 ∧ (0 : ℚ) ≤ 4 :=
  ⟨envLegal_pluck, rfl, by decide +kernel, by norm_num⟩

/-- Two times in Attack, in Decay, in Sustain, after note-off, a time before it; and an envelope never released. -/
theorem witness_EnvelopeIsMonotoneInEachPhase :
    EnvLegal pluckParams ∧ 1 / 2 < pluckParams.atk ∧
    (pluckParams.atk ≤ 1 ∧ 3 / 2 < pluckParams.atk + pluckParams.dcy) ∧ pluckParams.atk + pluckParams.dcy ≤ 2 ∧
    (pluckParams.noffEn = true ∧ pluckParams.noff ≤ 3 ∧ pluckParams.noff + pluckParams.rel ≤ 4) ∧ EnvLegal Params.reset ∧ Params.reset.noffEn = false ∧ 5 / 2 < pluckParams.noff :=
  ⟨envLegal_pluck, by decide +kernel, by decide +kernel, by decide +kernel, by decide +kernel, envLegal_reset, rfl,
    by decide +kernel⟩

theorem witness_EnvelopeAtItsBoundaries :
    (EnvLegal pluckParams ∧ 0 < pluckParams.atk ∧ 0 < pluckParams.dcy ∧ pluckParams.noffEn = true ∧
      0 < pluckParams.rel) ∧
    (EnvLegal Params.reset ∧ Params.reset.atk = 0 ∧ Params.reset.dcy = 0) ∧
    (let p := { pluckParams with rel := 0, noff := 0 }
     EnvLegal p ∧ p.noffEn = true ∧ p.rel = 0 ∧ p.noff = 0 ∧ 0 < p.atk) :=
  ⟨⟨envLegal_pluck, by decide +kernel⟩, ⟨envLegal_reset, rfl, rfl⟩,
    ⟨by decide +kernel, by decide +kernel, by decide +kernel, by decide +kernel, by decide +kernel⟩, by decide +kernel⟩

/-- Two states that differ in a slot and in `MGAIN`, and two destinations. -/
theorem witness_RenderIsDeterministic :
    ∃ s u t v : State, s ≠ u ∧ Memory.wf s.slots = true ∧ Memory.wf u.slots = true ∧
      u.params = { s.params with mgain := u.params.mgain } ∧
      exec (.render 0) s = .next t ∧ exec (.render 1) u = .next v :=
  ⟨State.reset, { State.reset with params := { Params.reset with mgain := 2 }, slots := mixSlots }, _, _,
    fun h => absurd (congrArg State.slots h) (by decide), rfl, rfl, rfl, rfl, rfl⟩

/-- The voice has eight samples under the reference values, so there is a first one; and it is legal for the machine from
`BUF_CAP = 8` on. -/
theorem witness_RenderStartsFromSilence :
    (RenderLegal refConfig eightParams ∧ Memory.wf State.reset.slots = true ∧ 0 < eightParams.atk ∧
      bufLen (runRender refConfig 0 (refState eightParams [])) (0 : Field8).toNat = 8) ∧
    (8 ≤ Config.machine.bufCap → RenderLegal Config.machine eightParams) :=
  ⟨⟨renderLegal_eight _ (by decide), rfl, by decide +kernel, by decide +kernel⟩, renderLegal_eight _⟩

theorem witness_MixCopiesNegatesAndSilences :
    ∀ g : ℚ, let s := { State.reset with params := { Params.reset with mgain := g } }
      MixLegal Config.machine 0 1 s ∧ Memory.wf s.slots = true ∧ (∀ k, ∀ x ∈ slotBuf s k, IsSample x) ∧
        s.params.mgain = g :=
  fun _ => ⟨⟨by decide, by decide, fun _ _ => Nat.zero_le _⟩, rfl,
    fun _ _ hx => absurd hx (by simp [slotBuf, State.reset]), rfl⟩

theorem witness_MixWithinUnitGainNeverClips :
    MixLegal Config.machine 255 1 State.reset ∧ (∀ k, ∀ x ∈ slotBuf State.reset k, IsSample x) ∧
      |State.reset.params.mgain| ≤ 1 :=
  ⟨mixLegal_reset _, fun _ _ hx => absurd hx (by simp [slotBuf, State.reset]),
    by rw [show State.reset.params.mgain = 1 from rfl]; norm_num⟩

/-- A slot of one full-scale sample, a delay of one sample, no decay: both cases of the hypothesis. -/
theorem witness_ReverbWithoutEchoIsACopy :
    let s := { State.reset with params := echoParams, slots := [(0, [-32767])] }
    ReverbLegal Config.machine s.params ∧ Memory.wf s.slots = true ∧ (∀ x ∈ slotBuf s 0, IsSample x) ∧
      s.params.rdecay = 0 ∧
      (bufLen s 0 : Int) ≤ Config.machine.round (s.params.rdelay * s.params.srate / 1000) := by
  refine ⟨reverbLegal_echo _, rfl, ?_, rfl, (reverbLegal_echo Config.machine).delay⟩
  show ∀ x ∈ [(-32767 : Int)], IsSample x
  simp [IsSample]

theorem witness_LowpassAtZeroCutoffIsSilence :
    let s := { State.reset with params := { Params.reset with cutoff := 0 }, slots := mixSlots }
    s.params.cutoff = 0 ∧ Memory.wf s.slots = true := ⟨rfl, rfl⟩

theorem witness_LowpassAtFullCutoffIsTheIdentity :
    let s := { State.reset with slots := [(0, [32767, -32767])] }
    s.params.cutoff = 1 ∧ Memory.wf s.slots = true ∧ ∀ x ∈ slotBuf s 0, IsSample x := by
  refine ⟨rfl, rfl, ?_⟩
  show ∀ x ∈ [(32767 : Int), -32767], IsSample x
  simp [IsSample]

theorem witness_WrittenRegisterReadsBack :
    (hostWritable .ctrl = true ∧ Reg.ctrl ≠ .cmd ∧ rightType .ctrl (.word 0xFFFFFFFF) = true) ∧
    hostWritable .envt = true ∧ Reg.envt ≠ .cmd ∧ rightType .envt (.num (-1)) = true := by decide

theorem witness_ReadsReturnAndChangeNothing : Reg.clipcnt ≠ .cmd ∧ regNumber .clipcnt = 28 := by decide

/-- The bounds of the ranges, and the registers just outside them. -/
theorem witness_UndefinedAccessesAreRefused :
    (∀ n : Fin 32, n = 21 ∨ n = 23 ∨ n = 24 ∨ n = 28 → n = 21 ∨ n = 23 ∨ (24 ≤ n ∧ n ≤ 28)) ∧
    (∀ n : Fin 32, n = 22 ∨ n = 29 ∨ n = 30 → ¬(n = 21 ∨ n = 23 ∨ (24 ≤ n ∧ n ≤ 28))) ∧
    (30 : Fin 32) ≤ 30 ∧ (30 : Fin 32) ≤ 31 ∧ ¬(30 : Fin 32) ≤ 29 := by decide

theorem witness_ByteViewIsLittleEndian :
    let s := { State.reset with slots := mixSlots }
    (0 < bufLen s 1 ∧ 4 < bufLen s 1) ∧ 2 * bufLen s 1 ≤ 10 := by decide

theorem witness_LoadReplacesOneSlotOrFails :
    Memory.wf mixSlots = true ∧
    (([] : List (BitVec 16)).length ≤ Config.machine.bufCap ∧ ∀ x ∈ ([] : List (BitVec 16)), x ≠ 0x8000) ∧
    ((List.replicate Config.machine.bufCap (0 : BitVec 16)).length = Config.machine.bufCap ∧
      ∀ x ∈ List.replicate Config.machine.bufCap (0 : BitVec 16), x ≠ 0x8000) ∧
    Config.machine.bufCap < (List.replicate (Config.machine.bufCap + 1) (0 : BitVec 16)).length ∧
    (0x8000 : BitVec 16) ∈ [(0x8000 : BitVec 16)] ∧ [(0x4B : Byte)].length % 2 = 1 :=
  ⟨rfl, ⟨Nat.zero_le _, by simp⟩,
    ⟨List.length_replicate, fun x hx => by rw [(List.mem_replicate.mp hx).2]; decide⟩, by simp, by simp, rfl⟩

theorem witness_LoadRestoresWhatReadReturned :
    Memory.wf State.reset.slots = true ∧ (∀ x ∈ slotBuf State.reset 0, IsSample x) ∧
      bufLen State.reset 0 ≤ Config.machine.bufCap :=
  ⟨rfl, fun _ hx => absurd hx (by simp [slotBuf, State.reset]), Nat.zero_le _⟩

/-- The pads at the two sides of the bound of `BUF_CAP`, whatever it is. -/
theorem witness_PseudoInstructionsDoWhatTheyExpandTo :
    (∀ l : List HostAction, { State.reset with inbox := l ++ [] }.inbox = l ++ []) ∧
    Memory.wf State.reset.slots = true ∧ (∀ x ∈ slotBuf State.reset (1 : Field8).toNat, IsSample x) ∧
    Config.machine.bufCap + bufLen State.reset (1 : Field8).toNat ≤ Config.machine.bufCap ∧
    Config.machine.bufCap < Config.machine.bufCap + 1 + bufLen State.reset (1 : Field8).toNat :=
  ⟨fun _ => rfl, rfl, fun _ hx => absurd hx (by simp [slotBuf, State.reset]), Nat.le_refl _,
    Nat.lt_succ_self _⟩

theorem witness_EveryCommandAfterResetHasItsOutcome :
    (1 : Field8) ≠ 0 ∧ (255 : Field8).toNat + (1 : Field8).toNat ≤ 256 := by decide

end Sys2Proof.Machine
end

