-- ==== Sys2Proof/Proofs/Scope.lean ====
section
/-! PROOFS. Scope (spec/00_scope.md): a step is the host's next action, the parameters of a configuration meet their
constraints, and the quantiser clips, truncates and counts. -/

namespace Sys2Proof

/-! ### `SIN` and `POW2C` (R7, R8) -/

/-- The exact values of R7 lie in `[-1,1]`. -/
theorem sinExact_range {p v : Num} (h : sinExact p = some v) : -1 ≤ v ∧ v ≤ 1 := by
  unfold sinExact at h
  split_ifs at h <;> simp only [Option.some.injEq] at h <;> subst h <;> norm_num

theorem Config.sin_range (c : Config) (x : Num) : -1 ≤ c.sin x ∧ c.sin x ≤ 1 := by
  unfold Config.sin
  split
  · next h => exact sinExact_range h
  · constructor <;> simp

theorem Config.sin_fract (c : Config) (x : Num) : c.sin x = c.sin (Int.fract x) := by
  rw [← fracNum_eq, Config.sin, Config.sin, fracNum_fracNum]

/-- At a phase in `[0,1)` that R7 names, `SIN` has the value R7 gives it. -/
theorem Config.sin_of_sinExact (c : Config) {p v : Num} (h0 : 0 ≤ p) (h1 : p < 1) (h : sinExact p = some v) :
    c.sin p = v := by
  rw [Config.sin, fracNum_of_unit h0 h1, h]

theorem Config.sinProperties (c : Config) : SinProperties c.sin where
  range := c.sin_range
  zero := c.sin_of_sinExact le_rfl one_pos (by norm_num [sinExact])
  period := c.sin_fract
  quarters := by refine ⟨?_, ?_, ?_⟩ <;> apply c.sin_of_sinExact <;> norm_num [sinExact]
  twelfths := by refine ⟨?_, ?_, ?_, ?_⟩ <;> apply c.sin_of_sinExact <;> norm_num [sinExact]

theorem Config.pow2c_pos (c : Config) (x : Num) : 0 < c.pow2c x := by
  unfold Config.pow2c
  split_ifs with _ h
  · exact pow2Int_pos _
  · exact h
  · norm_num

/-- At a whole number of octaves `POW2C` is exact. -/
theorem Config.pow2c_octave (c : Config) (k : Int) : c.pow2c (1200 * k) = (2 : Num) ^ k := by
  have hk : (1200 * (k : Num)) / 1200 = k := mul_div_cancel_left₀ _ (by norm_num)
  rw [Config.pow2c, hk, if_pos (Rat.den_intCast k), Rat.num_intCast, pow2Int_eq_zpow]

theorem Config.pow2cProperties (c : Config) : Pow2cProperties c.pow2c := ⟨c.pow2c_pos, c.pow2c_octave⟩

theorem Config.pow2c_zero (c : Config) : c.pow2c 0 = 1 := by simpa using c.pow2c_octave 0

/-! ### `ROUND` (R9) -/

/-- `ROUND_NEAREST`: below, at and above a tie. -/
theorem Config.abs_round_sub_le (c : Config) (x : Num) : |(c.round x : Num) - x| ≤ 1 / 2 := by
  have hx := Int.floor_add_fract x
  have h0 := Int.fract_nonneg x
  have h1 := Int.fract_lt_one x
  rw [abs_le]
  rcases lt_trichotomy (Int.fract x) (1 / 2) with h | h | h
  · rw [c.round_below h]
    constructor <;> linarith
  · rw [c.round_tie h]
    split <;> constructor <;> push_cast <;> linarith
  · rw [c.round_above h]
    constructor <;> push_cast <;> linarith

end Sys2Proof

namespace Sys2Proof.Machine

/-! ### The step (R4, R61) -/

theorem step_of_inbox_nil {s : State} (h : s.inbox = []) : step s = .next s := by
  rw [step, nextAction, h]

theorem step_of_inbox_cons {s : State} {a : HostAction} {rest : List HostAction} (h : s.inbox = a :: rest) :
    step s = perform a { s with inbox := rest } := by
  rw [step, nextAction, h]

/-! ### The quantiser (R56) -/

theorem quantise_of_above {v : Num} (h : 32767 < v) : quantise v = 32767 := by
  have hc : clipNum v = ((32767 : Int) : Num) := by
    rw [clipNum, max_eq_left (by linarith), min_eq_right h.le]; rfl
  rw [quantise, hc, truncNum_intCast]

theorem quantise_of_below {v : Num} (h : v < -32767) : quantise v = -32767 := by
  have hc : clipNum v = ((-32767 : Int) : Num) := by
    rw [clipNum, max_eq_right h.le, min_eq_left (by norm_num)]; rfl
  rw [quantise, hc, truncNum_intCast]

theorem quantise_of_mem {v : Num} (h : -32767 ≤ v ∧ v ≤ 32767) : quantise v = if 0 ≤ v then ⌊v⌋ else ⌈v⌉ := by
  rw [quantise, clipNum_of_mem h]
  split
  · next h0 => exact truncNum_of_nonneg h0
  · next h0 => exact truncNum_of_nonpos (not_le.mp h0).le

theorem quantise_eq (v : Num) :
    quantise v = if 32767 < v then 32767 else if v < -32767 then -32767 else if 0 ≤ v then ⌊v⌋ else ⌈v⌉ := by
  split_ifs with above below h0
  · exact quantise_of_above above
  · exact quantise_of_below below
  all_goals rw [quantise_of_mem ⟨not_lt.mp below, not_lt.mp above⟩]; simp [h0]

theorem overRange_false_iff_abs {v : Num} : overRange v = false ↔ |v| ≤ 32767 := overRange_false.trans abs_le.symm

theorem overRange_iff_abs {v : Num} : overRange v = true ↔ 32767 < |v| := by
  rw [← not_le, ← overRange_false_iff_abs, Bool.not_eq_false]

theorem q16_snd_of_overRange {v : Num} (q : Tally) (h : overRange v = true) : (q16 v q).2 = q.event := if_pos h

end Sys2Proof.Machine

open Sys2Proof Sys2Proof.Machine

/-- Settles O31: each property of R7 and R8 holds of every configuration, and `config_realises` gives the
configuration of a pair of functions that have them. -/
theorem sinAndPow2cHaveTheNamedProperties : Obligations.SinAndPow2cHaveTheNamedProperties := by
  refine ⟨fun c => ⟨c.sinProperties, c.pow2cProperties, c.pow2c_zero⟩, fun sin pow2c hs hp => ?_⟩
  let m := Config.machine
  obtain ⟨c, hsin, hpow, -⟩ := config_realises m.bufCap m.resCap hs hp m.abs_round_sub_le m.lfsrSeed_ne_zero
    m.noiseInit_mem m.lpfEps_pos
  exact ⟨c, hsin, hpow⟩

/-- Settles O33: the sample by the range of the value, the record by whether the value is over range. -/
theorem quantiserClipsTruncatesAndCounts : Obligations.QuantiserClipsTruncatesAndCounts := by
  refine fun v q => ⟨quantise_eq v, fun h => ?_, fun h => q16_snd_of_not q (overRange_false_iff_abs.mpr h)⟩
  rw [q16_snd_of_overRange q (overRange_iff_abs.mpr h)]
  exact ⟨rfl, satSucc_toNat q.count⟩

/-- Settles O6, by the two cases of the list of the host's actions. -/
theorem stepPerformsTheHostsNextAction : Obligations.StepPerformsTheHostsNextAction :=
  ⟨fun _ _ _ => step_of_inbox_cons, fun _ => step_of_inbox_nil⟩

/-- Settles O32: each parameter's constraint holds in every configuration, so in the machine's. -/
theorem parametersMeetTheirConstraints : Obligations.ParametersMeetTheirConstraints := by
  obtain ⟨hlo, hhi⟩ := Config.machine.noiseInit_mem
  exact ⟨Config.machine.abs_round_sub_le, Config.machine.lfsrSeed_ne_zero, hlo, hhi, Config.machine.lpfEps_pos⟩

end

section
/-! PROOFS. State (spec/10_state.md): what a command, a transaction of the host and a step can do is said once
(`exec_cases`, `perform_next`, `step_next`); the invariant, the frames, the safe runs and the reset are read off it. -/

namespace Sys2Proof.Machine

/-! ### The render state (R36, R38, R101, R102, R105) -/

/-- A render state whose phase is wrapped (R36) and whose held noise value is in range (R38). -/
structure RenderState.InRange (r : RenderState) : Prop where
  phase : 0 ≤ r.phase ∧ r.phase < 1
  nhold : -1 ≤ r.nhold ∧ r.nhold ≤ 1

theorem RenderState.fresh_inRange (c : Config) : (RenderState.fresh c).InRange :=
  ⟨⟨le_rfl, one_pos⟩, c.noiseInit_mem⟩

theorem noiseMap_mem (l : BitVec 16) : -1 ≤ noiseMap l ∧ noiseMap l < 1 := by
  have h : (l.toNat : Num) < 65536 := by exact_mod_cast l.isLt
  have h0 : (0 : Num) ≤ l.toNat := Nat.cast_nonneg _
  constructor <;> rw [noiseMap] <;> linarith

/-- The register shifts its upper bits down, so only 0 and 1 could step to 0; and 1 steps to `0x8000`. -/
theorem lfsrNext_ne_zero {l : BitVec 16} (h : l ≠ 0) : lfsrNext l ≠ 0 := by
  intro h0
  have shifted : l >>> 1 = 0 := (BitVec.or_eq_zero_iff.mp h0).1
  have one : l = 1 := by bv_omega
  subst one
  exact absurd h0 (by decide)

/-- One call wraps the phase; it draws the noise register and holds its value, or leaves both (R99, R100). -/
theorem oscAdvance_cases (w : Waveform) (srate f : Num) (r : RenderState) :
    (oscAdvance w srate f r = { phase := fracNum (phaseAdvance srate f r.phase), lfsr := lfsrNext r.lfsr,
                                nhold := noiseMap (lfsrNext r.lfsr) }) ∨
    (oscAdvance w srate f r = { r with phase := fracNum (phaseAdvance srate f r.phase) }) :=
  ite_eq_or_eq _ _ _

theorem oscAdvance_phase (w : Waveform) (srate f : Num) (r : RenderState) :
    (oscAdvance w srate f r).phase = fracNum (phaseAdvance srate f r.phase) := by
  rcases oscAdvance_cases w srate f r with drawn | kept
  · rw [drawn]
  · rw [kept]

theorem oscAdvance_inRange (w : Waveform) (srate f : Num) {r : RenderState} (h : r.InRange) :
    (oscAdvance w srate f r).InRange := by
  have wrapped (q : Num) : 0 ≤ fracNum q ∧ fracNum q < 1 := ⟨fracNum_nonneg q, fracNum_lt_one q⟩
  rcases oscAdvance_cases w srate f r with drawn | kept
  · obtain ⟨lo, hi⟩ := noiseMap_mem (lfsrNext r.lfsr)
    rw [drawn]
    exact ⟨wrapped _, lo, hi.le⟩
  · rw [kept]
    exact ⟨wrapped _, h.nhold⟩

theorem oscAdvance_lfsr_ne_zero (w : Waveform) (srate f : Num) {r : RenderState} (h : r.lfsr ≠ 0) :
    (oscAdvance w srate f r).lfsr ≠ 0 := by
  rcases oscAdvance_cases w srate f r with drawn | kept
  · rw [drawn]
    exact lfsrNext_ne_zero h
  · rwa [kept]

theorem oscOutput_mem (c : Config) (w : Waveform) (pw : Num) {r : RenderState} (h : r.InRange) :
    -1 ≤ oscOutput c w pw r ∧ oscOutput c w pw r ≤ 1 := by
  obtain ⟨⟨h0, h1⟩, hn⟩ := h
  unfold oscOutput
  cases w with
  | sine => exact c.sin_range _
  | square => rw [gen]; split <;> norm_num
  | pulse => rw [gen]; split <;> norm_num
  | sawtooth => rw [gen]; constructor <;> linarith
  | triangle => rw [gen]; split <;> constructor <;> linarith
  | noise => exact hn

/-! ### The envelope (R112, R113, R117) -/

theorem ads_mem {p : Params} (h : EnvLegal p) {t : Num} (ht : 0 ≤ t) : 0 ≤ ads p t ∧ ads p t ≤ 1 := by
  obtain ⟨s0, s1⟩ := h.sus
  unfold ads
  split_ifs with attack decay
  · exact ⟨div_nonneg ht h.atk, div_le_one_of_le₀ attack.le h.atk⟩
  · have dcy : 0 < p.dcy := by linarith
    have u0 : 0 ≤ (t - p.atk) / p.dcy := div_nonneg (by linarith) dcy.le
    have u1 : (t - p.atk) / p.dcy ≤ 1 := (div_le_one dcy).mpr (by linarith)
    have fallen0 : 0 ≤ (1 - p.sus) * ((t - p.atk) / p.dcy) := mul_nonneg (by linarith) u0
    have fallen1 : (1 - p.sus) * ((t - p.atk) / p.dcy) ≤ 1 := mul_le_one₀ (by linarith) u0 u1
    rw [mul_div_assoc]
    constructor <;> linarith
  · exact ⟨s0, s1⟩

/-- R117: a legal envelope lies in `[0,1]` at every time. -/
theorem env_mem {p : Params} (h : EnvLegal p) {t : Num} (ht : 0 ≤ t) : 0 ≤ env p t ∧ env p t ≤ 1 := by
  unfold env
  split_ifs with released ended
  · exact ⟨le_rfl, zero_le_one⟩
  · obtain ⟨a0, a1⟩ := ads_mem h (h.noff released.1)
    have rel : 0 < p.rel := by linarith
    have u0 : 0 ≤ (t - p.noff) / p.rel := div_nonneg (by linarith) rel.le
    have u1 : (t - p.noff) / p.rel ≤ 1 := (div_le_one rel).mpr (by linarith)
    exact ⟨mul_nonneg a0 (by linarith), mul_le_one₀ a1 (by linarith) (by linarith)⟩
  · exact ads_mem h ht

/-- R125: no sample of a legal voice is clipped. -/
theorem voiceValue_not_overRange {c : Config} {p : Params} (h : RenderLegal c p) (w : Waveform) (i : Nat)
    {r : RenderState} (hr : r.InRange) : overRange (voiceValue c w p i r) = false := by
  obtain ⟨e0, e1⟩ := env_mem h.env (t := sampleTime p i) (div_nonneg (Nat.cast_nonneg _) h.srate.le)
  have tone : |oscOutput c w p.pw r| ≤ 1 := abs_le.mpr (oscOutput_mem c w p.pw hr)
  have product : |oscOutput c w p.pw r * env p (sampleTime p i) * p.amp| ≤ 1 := by
    rw [abs_mul, abs_mul, abs_of_nonneg e0, abs_of_nonneg h.amp.1]
    exact mul_le_one₀ (mul_le_one₀ tone e0 e1) h.amp.1 h.amp.2
  rw [overRange_false_iff_abs, voiceValue, abs_mul, abs_of_pos (show (0 : Num) < 32767 by norm_num)]
  linarith

/-! ### Status words (R39, R172) -/

theorem legalStatus_errorStatus (e : Cause) : LegalStatus (errorStatus e) := by
  cases e with
  | illegal k => cases k <;> constructor <;> decide
  | _ => constructor <;> decide

theorem legalStatus_success (clipped : Bool) : LegalStatus (statusWord 0 clipped 0) := by
  cases clipped <;> constructor <;> decide

/-! ### What the sample loops give (R45, R50, R56) -/

/-- Every sample of every slot is in range (R44, R57). -/
def SlotsHoldSamples (s : State) : Prop := ∀ k, ∀ x ∈ slotBuf s k, IsSample x

/-- The output stream of a command issued in `s`, after `n` samples: it holds `n`, in range when the slots it may copy
from are, and the count has not fallen. -/
structure StreamAfter (s : State) (n : Nat) (o : Stream) : Prop where
  length : o.out.length = n
  samples : SlotsHoldSamples s → ∀ x ∈ o.out, IsSample x
  count : s.clipcnt.toNat ≤ o.q.count.toNat

theorem StreamAfter.start (s : State) : StreamAfter s 0 (Stream.start s) := ⟨rfl, by simp, le_rfl⟩

theorem StreamAfter.copy {s : State} {n : Nat} {o : Stream} (h : StreamAfter s n o) {x : Int}
    (hx : SlotsHoldSamples s → IsSample x) : StreamAfter s (n + 1) (o.copy x) where
  length := by simp [h.length]
  samples hs := by
    simp only [Stream.copy_out, List.forall_mem_append, List.forall_mem_singleton]
    exact ⟨h.samples hs, hx hs⟩
  count := h.count

theorem le_count_event (q : Tally) : q.count.toNat ≤ q.event.count.toNat := by
  have := q.count.isLt
  rw [Tally.event, satSucc_toNat]
  omega

theorem StreamAfter.push {s : State} {n : Nat} {o : Stream} (h : StreamAfter s n o) (v : Num) :
    StreamAfter s (n + 1) (o.push v) where
  length := by simp [h.length]
  samples hs := by
    simp only [Stream.push_out, List.forall_mem_append, List.forall_mem_singleton]
    exact ⟨h.samples hs, quantise_isSample v⟩
  count := by
    rw [Stream.push_q]
    split
    · exact h.count.trans (le_count_event o.q)
    · exact h.count

/-- A read past the end of a slot gives 0, which is a sample too. -/
theorem SlotsHoldSamples.getD {s : State} (h : SlotsHoldSamples s) (k i : Nat) :
    IsSample ((slotBuf s k).getD i 0) := by
  rcases lt_or_ge i (slotBuf s k).length with inside | past
  · rw [List.getD_eq_getElem _ _ inside]
    exact h k _ (List.getElem_mem inside)
  · rw [List.getD_eq_default _ _ past]
    exact ⟨by decide, by decide⟩

theorem mixLoop_zero (a n : Field8) (s : State) : mixLoop a n s 0 = Stream.start s := rfl

theorem lowpassLoop_zero_stream (c : Config) (a : Field8) (s : State) :
    (lowpassLoop c a s 0).stream = Stream.start s := rfl

theorem renderLoop_zero_stream (c : Config) (w : Waveform) (s : State) :
    (renderLoop c w s 0).stream = Stream.start s := rfl

theorem mixLoop_streamAfter (src cnt : Field8) (s : State) (n : Nat) : StreamAfter s n (mixLoop src cnt s n) :=
  forRange_induction (P := StreamAfter s) (.start s) fun _ _ _ h => h.push _

theorem reverbLoop_streamAfter (c : Config) (src : Field8) (s : State) (n : Nat) :
    StreamAfter s n (reverbLoop c src s n) := by
  refine forRange_induction (P := StreamAfter s) (.start s) fun i o _ h => ?_
  unfold reverbSample
  split
  · exact h.copy fun hs => hs.getD _ _
  · exact h.push _

theorem lowpassLoop_streamAfter (c : Config) (src : Field8) (s : State) (n : Nat) :
    StreamAfter s n (lowpassLoop c src s n).stream :=
  forRange_induction (P := fun n (v : FilterLoop) => StreamAfter s n v.stream) (.start s) fun _ _ _ h => h.push _

/-- What the loop of a legal `RENDER` keeps: the render state stays in range, and no sample clips (R125). -/
structure VoiceAfter (s : State) (n : Nat) (v : VoiceLoop) : Prop where
  inRange : v.osc.InRange
  lfsr : v.osc.lfsr ≠ 0
  stream : StreamAfter s n v.stream
  unclipped : v.stream.q = Tally.start s

theorem renderLoop_voiceAfter {c : Config} {s : State} (h : RenderLegal c s.params) (w : Waveform) (n : Nat) :
    VoiceAfter s n (renderLoop c w s n) := by
  refine forRange_induction (P := VoiceAfter s)
    ⟨RenderState.fresh_inRange c, c.lfsrSeed_ne_zero, .start s, rfl⟩ fun i v _ hv => ?_
  have quiet : overRange (voiceValue c w s.params i v.osc) = false := voiceValue_not_overRange h w i hv.inRange
  exact ⟨oscAdvance_inRange _ _ _ hv.inRange, oscAdvance_lfsr_ne_zero _ _ _ hv.lfsr, hv.stream.push _,
    (q16_snd_of_not _ quiet).trans hv.unclipped⟩

theorem renderLength_toNat_le {c : Config} {p : Params} (h : RenderLegal c p) :
    (renderLength p).toNat ≤ c.bufCap :=
  Int.toNat_le.mpr h.length

/-! ### A legal command succeeds -/

theorem runOscstep_of_legal {c : Config} {s : State} (h : OscstepLegal s.params) :
    ∃ w, waveformOf s.params.wave = some w ∧
      runOscstep c s = finish false
        { s with
          oscout := oscOutput c w s.params.pw s.osc
          osc := oscAdvance w s.params.srate s.params.oscf s.osc } := by
  rcases runOscstep_cases c s with ⟨e, raised, -⟩ | ⟨w, -, hw, ht⟩
  · cases (oscstepChecks_none.mpr h).symm.trans raised
  · exact ⟨w, hw, ht⟩

theorem execEnveval_of_legal {s : State} (h : EnvevalLegal s.params) :
    execEnveval s = .next (finish false { s with envout := env s.params s.params.envt }) := by
  rcases execEnveval_cases s with ⟨e, raised, -⟩ | ⟨-, ht⟩
  · cases (envevalChecks_none.mpr h).symm.trans raised
  · exact ht

theorem runRender_of_legal {c : Config} {s : State} (h : RenderLegal c s.params) (d : Field8) :
    ∃ w, waveformOf s.params.wave = some w ∧
      runRender c d s = storeResult d (renderLoop c w s (renderLength s.params).toNat).stream.out
        (renderLoop c w s (renderLength s.params).toNat).stream.q
        { s with osc := (renderLoop c w s (renderLength s.params).toNat).osc } := by
  rcases runRender_cases c d s with ⟨e, raised, -⟩ | ⟨w, -, hw, ht⟩
  · cases (renderChecks_none.mpr h).symm.trans raised
  · exact ⟨w, hw, ht⟩

theorem runMix_of_legal {c : Config} {a n : Field8} {s : State} (h : MixLegal c a n s) (d : Field8) :
    runMix c d a n s = storeResult d (mixLoop a n s (mixLength a n s)).out (mixLoop a n s (mixLength a n s)).q s := by
  rcases runMix_cases c d a n s with ⟨e, raised, -⟩ | ⟨-, ht⟩
  · cases (mixChecks_none.mpr h).symm.trans raised
  · exact ht

theorem runLowpass_of_legal (c : Config) {s : State} (h : LowpassLegal s.params) (d a : Field8) :
    runLowpass c d a s = storeResult d (lowpassLoop c a s (bufLen s a.toNat)).stream.out
      (lowpassLoop c a s (bufLen s a.toNat)).stream.q s := by
  rcases runLowpass_cases c d a s with ⟨e, raised, -⟩ | ⟨-, ht⟩
  · cases (lowpassChecks_none.mpr h).symm.trans raised
  · exact ht

/-! ### What a command can do, said once (R172, R176, R177) -/

/-- The commands that make a slot out of slots, and their destination. -/
inductive IsEffect : Instr → Field8 → Prop
  | mix (d a n : Field8) : IsEffect (.mix d a n) d
  | reverb (d a : Field8) : IsEffect (.reverb d a) d
  | lowpass (d a : Field8) : IsEffect (.lowpass d a) d

/-- What a command that succeeds can make of the state, as far as the invariant and the frames need to know it. -/
inductive Success (s : State) : Instr → State → Prop
  | nop : Success s .nop (finish false s)
  | oscinit : Success s .oscinit (finish false { s with osc := RenderState.fresh Config.machine })
  | oscstep (w : Waveform) : Success s .oscstep (finish false
      { s with
        oscout := oscOutput Config.machine w s.params.pw s.osc
        osc := oscAdvance w s.params.srate s.params.oscf s.osc })
  | enveval (legal : EnvevalLegal s.params) :
      Success s .enveval (finish false { s with envout := env s.params s.params.envt })
  | render (d : Field8) {n : Nat} {v : VoiceLoop} (fits : n ≤ Config.machine.bufCap) (voice : VoiceAfter s n v) :
      Success s (.render d) (storeResult d v.stream.out v.stream.q { s with osc := v.osc })
  | effect {i : Instr} {d : Field8} {k : Nat} {o : Stream} (kind : IsEffect i d)
      (stream : StreamAfter s (bufLen s k) o) : Success s i (storeResult d o.out o.q s)

/-- Every command ends (R201): it raises a cause, or it succeeds. -/
theorem exec_cases (i : Instr) (s : State) :
    ∃ t, exec i s = .next t ∧ ((∃ e, t = raise e s) ∨ Success s i t) := by
  cases i with
  | nop => exact ⟨_, rfl, .inr .nop⟩
  | oscinit => exact ⟨_, rfl, .inr .oscinit⟩
  | oscstep =>
    refine ⟨_, rfl, ?_⟩
    rcases runOscstep_cases Config.machine s with ⟨e, -, he⟩ | ⟨w, -, -, ht⟩
    · exact .inl ⟨e, he⟩
    · exact .inr (ht ▸ .oscstep w)
  | enveval =>
    rcases execEnveval_cases s with ⟨e, -, he⟩ | ⟨legal, ht⟩
    · exact ⟨_, he, .inl ⟨e, rfl⟩⟩
    · exact ⟨_, ht, .inr (.enveval (envevalChecks_none.mp legal))⟩
  | render d =>
    refine ⟨_, rfl, ?_⟩
    rcases runRender_cases Config.machine d s with ⟨e, -, he⟩ | ⟨w, unraised, -, ht⟩
    · exact .inl ⟨e, he⟩
    · have legal := renderChecks_none.mp unraised
      exact .inr (ht ▸ .render d (renderLength_toNat_le legal) (renderLoop_voiceAfter legal w _))
  | mix d a n =>
    refine ⟨_, rfl, ?_⟩
    rcases runMix_cases Config.machine d a n s with ⟨e, -, he⟩ | ⟨unraised, ht⟩
    · exact .inl ⟨e, he⟩
    · obtain ⟨k, -, longest⟩ := (mixLength_spec a n s).2 (mixChecks_none.mp unraised).count
      rw [← longest] at ht
      exact .inr (ht ▸ .effect (.mix d a n) (mixLoop_streamAfter a n s _))
  | reverb d a =>
    refine ⟨_, rfl, ?_⟩
    rcases runReverb_cases Config.machine d a s with ⟨e, -, he⟩ | ⟨-, ht⟩
    · exact .inl ⟨e, he⟩
    · exact .inr (ht ▸ .effect (.reverb d a) (reverbLoop_streamAfter _ a s _))
  | lowpass d a =>
    refine ⟨_, rfl, ?_⟩
    rcases runLowpass_cases Config.machine d a s with ⟨e, -, he⟩ | ⟨-, ht⟩
    · exact .inl ⟨e, he⟩
    · exact .inr (ht ▸ .effect (.lowpass d a) (lowpassLoop_streamAfter _ a s _))

theorem exec_next {i : Instr} {s t : State} (h : exec i s = .next t) : (∃ e, t = raise e s) ∨ Success s i t := by
  obtain ⟨t', ht', outcome⟩ := exec_cases i s
  rwa [Host.Outcome.next.inj (h.symm.trans ht')]

/-! ### The registers and their numbers (R20, R46) -/

@[simp] theorem regOfNumber_regNumber (r : Reg) : regOfNumber (regNumber r) = some r := by cases r <;> rfl

theorem hostWrite_cmd (w : Word) (s : State) : hostWrite 29 (.word w) s = issueCommand w s := rfl

theorem issueCommand_of_ok {w : Word} {i : Instr} (h : decode w = .ok i) (s : State) :
    issueCommand w s = exec i s := by
  rw [issueCommand, h]

theorem issueCommand_of_error {w : Word} {k : Illegal} (h : decode w = .error k) (s : State) :
    issueCommand w s = .next (raise (.illegal k) s) := by
  rw [issueCommand, h]

theorem writeParam_of_readOnly {r : Reg} (h : hostWritable r = false) (v : Value) (p : Params) :
    writeParam r v p = none := by
  cases r with
  | oscout | envout | phase | lfsr | nhold | status | clipcnt => rfl
  | _ => cases h

theorem ne_cmd_of_writeParam {r : Reg} {v : Value} {p p' : Params} (h : writeParam r v p = some p') : r ≠ .cmd := by
  rintro rfl
  simp [writeParam] at h

/-- A write of any register but `CMD` sets a parameter, or is refused (R161, R46). -/
theorem hostWrite_of_ne_cmd {n : Fin 32} {r : Reg} (hr : regOfNumber n = some r) (hne : r ≠ .cmd) (v : Value)
    (s : State) :
    hostWrite n v s = (writeParam r v s.params).elim
      (.refused (if hostWritable r then .wrongValueType r else .writeToReadOnly r))
      fun p => .next { s with params := p } := by
  simp only [hostWrite, hr]
  split
  · next h => cases h
  · next h => exact absurd (Option.some.inj h) hne
  · next h _ =>
    obtain rfl := Option.some.inj h
    split <;> simp [*]

theorem hostWrite_of_writeParam {n : Fin 32} {r : Reg} {v : Value} {s : State} {p : Params}
    (hr : regOfNumber n = some r) (hp : writeParam r v s.params = some p) :
    hostWrite n v s = .next { s with params := p } := by
  rw [hostWrite_of_ne_cmd hr (ne_cmd_of_writeParam hp), hp, Option.elim_some]

theorem hostWrite_of_readOnly {n : Fin 32} {r : Reg} (hr : regOfNumber n = some r) (readOnly : hostWritable r = false)
    (v : Value) (s : State) : hostWrite n v s = .refused (.writeToReadOnly r) := by
  have hne : r ≠ .cmd := by rintro rfl; exact absurd readOnly (by decide)
  rw [hostWrite_of_ne_cmd hr hne, writeParam_of_readOnly readOnly, readOnly]
  rfl

/-- A write that is answered issues a command or sets a parameter. -/
theorem hostWrite_next {n : Fin 32} {v : Value} {s t : State} (h : hostWrite n v s = .next t) :
    (∃ w, issueCommand w s = .next t) ∨
    ∃ r p, writeParam r v s.params = some p ∧ t = { s with params := p } := by
  unfold hostWrite at h
  split at h
  · cases h
  · next w _ => exact .inl ⟨w, h⟩
  · next r _ _ =>
    split at h
    · next p hp => exact .inr ⟨r, p, hp, (Host.Outcome.next.inj h).symm⟩
    · cases h

/-- A parameter takes every value of its type (R161). -/
theorem writeParam_of_rightType {r : Reg} {v : Value} (p : Params) (writable : hostWritable r = true)
    (hne : r ≠ .cmd) (typed : rightType r v = true) : ∃ p', writeParam r v p = some p' := by
  cases r with
  | cmd => exact absurd rfl hne
  | oscout | envout | phase | lfsr | nhold | status | clipcnt => cases writable
  | wave | ctrl =>
    cases v with
    | num x => cases typed
    | word w => exact ⟨_, rfl⟩
  | _ =>
    cases v with
    | num x => exact ⟨_, rfl⟩
    | word w => cases typed

theorem readReg_of_ne_cmd {r : Reg} (h : r ≠ .cmd) (s : State) : ∃ v, readReg r s = some v := by
  cases r with
  | cmd => exact absurd rfl h
  | _ => exact ⟨_, rfl⟩

theorem hostRead_of_readReg {n : Fin 32} {r : Reg} {v : Value} {s : State} (hr : regOfNumber n = some r)
    (hv : readReg r s = some v) : hostRead n s = .next (reply (.value v) s) := by
  simp only [hostRead, hr, hv]

/-! ### What a transaction of the host can do, said once (R161 to R164, R190) -/

/-- What `LOAD` is given are 16-bit words, read as signed integers (R164). -/
theorem word_of_mem_samplesOfBytes {bytes : List Byte} {l : Buffer} (h : samplesOfBytes bytes = some l) {x : Int}
    (hx : x ∈ l) : ∃ w : BitVec 16, w.toInt = x := by
  induction bytes using samplesOfBytes.induct generalizing l with
  | case1 =>
    obtain rfl := Option.some.inj h
    cases hx
  | case2 => cases h
  | case3 lo hi rest ih =>
    obtain ⟨l', hl', rfl⟩ := Option.map_eq_some_iff.mp h
    rcases List.mem_cons.mp hx with rfl | hx
    · exact ⟨_, rfl⟩
    · exact ih hl' hx

theorem word_of_mem_imageSamples {image : Image} {l : Buffer} (h : imageSamples image = some l) {x : Int}
    (hx : x ∈ l) : ∃ w : BitVec 16, w.toInt = x := by
  cases image with
  | samples words =>
    obtain rfl := Option.some.inj h
    obtain ⟨w, -, hw⟩ := List.mem_map.mp hx
    exact ⟨w, hw⟩
  | bytes bytes => exact word_of_mem_samplesOfBytes h hx

/-- `LOAD` raises its one cause, or stores samples that fit (R164, R57). -/
theorem runLoad_cases (c : Config) (k : Field8) (image : Image) (s : State) :
    runLoad c k image s = raise .loadImage s ∨
    ∃ l : Buffer, (∀ x ∈ l, IsSample x) ∧ l.length ≤ c.bufCap ∧ runLoad c k image s = bufWrite k.toNat l s := by
  unfold runLoad
  split
  · exact .inl rfl
  · next l hl =>
    split_ifs with bad
    · exact .inl rfl
    · obtain ⟨fits, lowest⟩ := not_or.mp bad
      refine .inr ⟨l, fun x hx => ?_, not_lt.mp fits, rfl⟩
      obtain ⟨w, rfl⟩ := word_of_mem_imageSamples hl hx
      have hne : w.toInt ≠ -32768 := fun h => lowest (h ▸ hx)
      have hlo := w.le_toInt
      have hhi := w.toInt_lt
      simp only [IsSample, sampleMax]
      omega

/-- What an action of the host that is answered can make of the state, as far as the invariant and the frames need to
know it. -/
inductive Performed (s : State) : HostAction → State → Prop
  | error {a : HostAction} (e : Cause) : Performed s a (raise e s)
  | success {a : HostAction} {i : Instr} {t : State} (ran : Success s i t) : Performed s a t
  | param {a : HostAction} {r : Reg} {v : Value} {p : Params} (written : writeParam r v s.params = some p) :
      Performed s a { s with params := p }
  | reply {a : HostAction} (q : Reply) : Performed s a (reply q s)
  | load {a : HostAction} (k : Field8) {l : Buffer} (samples : ∀ x ∈ l, IsSample x)
      (fits : l.length ≤ Config.machine.bufCap) : Performed s a (bufWrite k.toNat l s)
  | pad {a : HostAction} (d : Field8) (n : Nat) (l : Buffer) (q : Reply) :
      Performed s a { s with inbox := paddedLoad d n l :: s.inbox, outbox := s.outbox ++ [q] }
  | reset : Performed s .reset { State.reset with inbox := s.inbox, outbox := s.outbox }

theorem performed_of_issueCommand {w : Word} {s t : State} (a : HostAction) (h : issueCommand w s = .next t) :
    Performed s a t := by
  cases hd : decode w with
  | ok i =>
    rw [issueCommand_of_ok hd] at h
    rcases exec_next h with ⟨e, rfl⟩ | ran
    · exact .error e
    · exact .success ran
  | error k =>
    rw [issueCommand_of_error hd] at h
    obtain rfl := Host.Outcome.next.inj h
    exact .error _

theorem hostRead_next {n : Fin 32} {s t : State} (h : hostRead n s = .next t) : ∃ q, t = reply q s := by
  unfold hostRead at h
  split at h
  · cases h
  · split at h
    · exact ⟨_, (Host.Outcome.next.inj h).symm⟩
    · cases h

theorem hostReadSlot_eq (k : Field8) (form : ImageForm) (s : State) :
    ∃ q, hostReadSlot k form s = .next (reply q s) := by
  cases form <;> exact ⟨_, rfl⟩

theorem perform_next {a : HostAction} {s t : State} (h : perform a s = .next t) : Performed s a t := by
  cases a with
  | wr n v =>
    rcases hostWrite_next h with ⟨w, hw⟩ | ⟨r, p, written, rfl⟩
    · exact performed_of_issueCommand _ hw
    · exact .param written
  | rd n =>
    obtain ⟨q, rfl⟩ := hostRead_next h
    exact .reply q
  | read k form =>
    obtain ⟨q, hq⟩ := hostReadSlot_eq k form s
    obtain rfl := Host.Outcome.next.inj (hq.symm.trans h)
    exact .reply q
  | load k image =>
    obtain rfl := Host.Outcome.next.inj h
    rcases runLoad_cases Config.machine k image s with he | ⟨l, samples, fits, ht⟩
    · exact he ▸ .error .loadImage
    · exact ht ▸ .load k samples fits
  | pad d a n =>
    obtain rfl := Host.Outcome.next.inj ((hostPad_next d a n s).symm.trans h)
    exact .pad d n _ _
  | reset =>
    obtain rfl := Host.Outcome.next.inj h
    exact .reset

/-- A step leaves the state, with no action to come, or performs the next one (R61). -/
theorem step_next {s t : State} (h : step s = .next t) :
    (s.inbox = [] ∧ t = s) ∨ ∃ a rest, s.inbox = a :: rest ∧ Performed { s with inbox := rest } a t := by
  cases hs : s.inbox with
  | nil =>
    rw [step_of_inbox_nil hs] at h
    exact .inl ⟨rfl, (Host.Outcome.next.inj h).symm⟩
  | cons a rest =>
    rw [step_of_inbox_cons hs] at h
    exact .inr ⟨a, rest, rfl, perform_next h⟩

/-! ### The invariant: one rule for each change of the state -/

theorem Inv.after_raise {s : State} (h : Inv s) (e : Cause) : Inv (raise e s) :=
  { h with status := legalStatus_errorStatus e }

theorem Inv.after_finish {s : State} (h : Inv s) (clipped : Bool) : Inv (finish clipped s) :=
  { h with status := legalStatus_success clipped }

theorem Inv.with_lists {s : State} (h : Inv s) (inbox : List HostAction) (outbox : List Reply) :
    Inv { s with inbox := inbox, outbox := outbox } := { h with }

theorem Inv.with_clipcnt {s : State} (h : Inv s) (n : Word) : Inv { s with clipcnt := n } := { h with }

theorem Inv.with_osc {s : State} (h : Inv s) {r : RenderState} (hr : r.InRange) (lfsr : r.lfsr ≠ 0) :
    Inv { s with osc := r } := { h with phase := hr.phase, lfsr := lfsr, nhold := hr.nhold }

theorem Inv.with_oscout {s : State} (h : Inv s) {x : Num} (hx : -1 ≤ x ∧ x ≤ 1) : Inv { s with oscout := x } :=
  { h with oscout := hx }

theorem Inv.with_envout {s : State} (h : Inv s) {x : Num} (hx : 0 ≤ x ∧ x ≤ 1) : Inv { s with envout := x } :=
  { h with envout := hx }

theorem Inv.with_params {s : State} (h : Inv s) {p : Params} (hp : p.ctrl &&& 0xFFFFFFFE = 0) :
    Inv { s with params := p } := { h with ctrl := hp }

theorem Inv.osc_inRange {s : State} (h : Inv s) : s.osc.InRange := ⟨h.phase, h.nhold⟩

/-- A slot may be replaced by samples that fit (R44, R50, R52). -/
theorem Inv.after_bufWrite {s : State} (h : Inv s) {k : Nat} {l : Buffer} (hk : k < slotCount)
    (samples : ∀ x ∈ l, IsSample x) (fits : l.length ≤ Config.machine.bufCap) : Inv (bufWrite k l s) :=
  { h with
    canonical := Memory.wf_set l h.canonical hk
    samples := fun k' => by
      rw [slotBuf_bufWrite _ _ _ _ h.canonical]
      split
      · exact samples
      · exact h.samples k'
    lengths := fun k' => by
      rw [bufLen, slotBuf_bufWrite _ _ _ _ h.canonical]
      split
      · exact fits
      · exact h.lengths k' }

theorem Inv.after_storeResult {s : State} (h : Inv s) (d : Field8) {l : Buffer} (q : Tally)
    (samples : ∀ x ∈ l, IsSample x) (fits : l.length ≤ Config.machine.bufCap) : Inv (storeResult d l q s) :=
  ((h.with_clipcnt q.count).after_bufWrite d.isLt samples fits).after_finish q.clipped

/-- Of the arms of `writeParam` only that of `CTRL`, the fifteenth, touches it. -/
theorem writeParam_ctrl {r : Reg} {v : Value} {p p' : Params} (h : writeParam r v p = some p') :
    p'.ctrl = p.ctrl ∨ ∃ w, p'.ctrl = w &&& ctrlMask := by
  unfold writeParam at h
  split at h <;> cases h
  case h_15 w => exact .inr ⟨w, rfl⟩
  all_goals exact .inl rfl

/-- The reserved bits of `CTRL` stay 0 (R42). -/
theorem writeParam_keeps_ctrl {r : Reg} {v : Value} {p p' : Params} (h : writeParam r v p = some p')
    (hp : p.ctrl &&& 0xFFFFFFFE = 0) : p'.ctrl &&& 0xFFFFFFFE = 0 := by
  rcases writeParam_ctrl h with kept | ⟨w, masked⟩
  · rwa [kept]
  · rw [masked, BitVec.and_assoc]
    exact BitVec.and_zero

theorem Success.keeps_inv {s t : State} {i : Instr} (h : Success s i t) (hs : Inv s) : Inv t := by
  cases h with
  | nop => exact hs.after_finish false
  | oscinit =>
    exact (hs.with_osc (RenderState.fresh_inRange _) (Config.lfsrSeed_ne_zero _)).after_finish false
  | oscstep w =>
    have advanced := hs.with_osc (oscAdvance_inRange w s.params.srate s.params.oscf hs.osc_inRange)
      (oscAdvance_lfsr_ne_zero w s.params.srate s.params.oscf hs.lfsr)
    exact (advanced.with_oscout (oscOutput_mem _ w _ hs.osc_inRange)).after_finish false
  | enveval legal => exact (hs.with_envout (env_mem legal.env legal.envt)).after_finish false
  | render d fits voice =>
    exact (hs.with_osc voice.inRange voice.lfsr).after_storeResult d _ (voice.stream.samples hs.samples)
      (voice.stream.length.trans_le fits)
  | effect kind stream =>
    exact hs.after_storeResult _ _ (stream.samples hs.samples) (stream.length.trans_le (hs.lengths _))

theorem inv_reset : Inv State.reset where
  canonical := Memory.wf_nil
  samples _ _ hx := absurd hx List.not_mem_nil
  lengths _ := Nat.zero_le _
  phase := (RenderState.fresh_inRange _).phase
  lfsr := Config.lfsrSeed_ne_zero _
  nhold := (RenderState.fresh_inRange _).nhold
  oscout := by norm_num [State.reset]
  envout := by norm_num [State.reset]
  ctrl := by decide
  status := legalStatus_success false

theorem Performed.keeps_inv {s t : State} {a : HostAction} (h : Performed s a t) (hs : Inv s) : Inv t := by
  cases h with
  | error e => exact hs.after_raise e
  | success ran => exact ran.keeps_inv hs
  | param written => exact hs.with_params (writeParam_keeps_ctrl written hs.ctrl)
  | reply q => exact hs.with_lists _ _
  | load k samples fits => exact hs.after_bufWrite k.isLt samples fits
  | pad d n l q => exact hs.with_lists _ _
  | reset => exact inv_reset.with_lists _ _

/-! ### Frames (R20, R51, R182) -/

theorem readByte_congr {s t : State} {k : Nat} (h : slotBuf t k = slotBuf s k) (a : Nat) :
    readByte t k a = readByte s k a := by
  rw [readByte, readByte, memRead, memRead, h]

theorem IsEffect.storeSlot_eq {i : Instr} {d : Field8} (h : IsEffect i d) : storeSlot i = some d.toNat := by
  cases h <;> rfl

/-- No command writes a parameter register, or the model's own two lists. -/
theorem Success.params_lists {s t : State} {i : Instr} (h : Success s i t) :
    t.params = s.params ∧ t.inbox = s.inbox ∧ t.outbox = s.outbox := by
  cases h <;> exact ⟨rfl, rfl, rfl⟩

/-- Every slot but the command's destination is as before (R51). -/
theorem Success.slotBuf_of_ne {s t : State} {i : Instr} (h : Success s i t) (hs : Memory.wf s.slots = true) {k : Nat}
    (hk : storeSlot i ≠ some k) : slotBuf t k = slotBuf s k := by
  cases h with
  | nop | oscinit | oscstep | enveval => rfl
  | render d =>
    rw [slotBuf_storeResult, if_neg fun h => hk (congrArg some h)]
    · rfl
    · exact hs
  | effect kind =>
    rw [kind.storeSlot_eq] at hk
    rw [slotBuf_storeResult _ _ _ _ _ hs, if_neg fun h => hk (congrArg some h)]

theorem Success.slots_of_none {s t : State} {i : Instr} (h : Success s i t) (hi : storeSlot i = none) :
    t.slots = s.slots := by
  cases h with
  | nop | oscinit | oscstep | enveval => rfl
  | render d => cases hi
  | effect kind => cases kind.storeSlot_eq.symm.trans hi

theorem Success.osc_of_ne {s t : State} {i : Instr} (h : Success s i t) (h1 : i ≠ .oscinit) (h2 : i ≠ .oscstep)
    (h3 : ∀ d, i ≠ .render d) : t.osc = s.osc := by
  cases h with
  | nop | enveval | effect => rfl
  | oscinit => exact absurd rfl h1
  | oscstep => exact absurd rfl h2
  | render d => exact absurd rfl (h3 d)

theorem Success.oscout_of_ne {s t : State} {i : Instr} (h : Success s i t) (hi : i ≠ .oscstep) :
    t.oscout = s.oscout := by
  cases h with
  | oscstep => exact absurd rfl hi
  | _ => rfl

theorem Success.envout_of_ne {s t : State} {i : Instr} (h : Success s i t) (hi : i ≠ .enveval) :
    t.envout = s.envout := by
  cases h with
  | enveval => exact absurd rfl hi
  | _ => rfl

/-- Only the three effects count; `RENDER`, which goes through the quantiser too, never clips (R125). -/
theorem Success.clipcnt_of_not_effect {s t : State} {i : Instr} (h : Success s i t) (hi : ∀ d, ¬IsEffect i d) :
    t.clipcnt = s.clipcnt := by
  cases h with
  | nop | oscinit | oscstep | enveval => rfl
  | render d fits voice => exact congrArg Tally.count voice.unclipped
  | effect kind => exact absurd kind (hi _)

theorem Success.clipcnt_le {s t : State} {i : Instr} (h : Success s i t) : s.clipcnt.toNat ≤ t.clipcnt.toNat := by
  cases h with
  | nop | oscinit | oscstep | enveval => exact le_rfl
  | render d fits voice => exact voice.stream.count
  | effect kind stream => exact stream.count

theorem Success.status_legal {s t : State} {i : Instr} (h : Success s i t) : LegalStatus t.status := by
  cases h <;> exact legalStatus_success _

theorem Performed.clipcnt_le {s t : State} {a : HostAction} (h : Performed s a t) (ha : a ≠ .reset) :
    s.clipcnt.toNat ≤ t.clipcnt.toNat := by
  cases h with
  | success ran => exact ran.clipcnt_le
  | reset => exact absurd rfl ha
  | error | param | reply | load | pad => exact le_rfl

/-! ### Safe runs (R46) -/

/-- A register number up to 28 names a register that can be read (R20). -/
theorem exists_readable_of_le : ∀ n : Fin 32, n.toNat ≤ 28 → ∃ r ∈ allRegs, r ≠ .cmd ∧ regNumber r = n := by decide

theorem exists_perform_of_hostMove {a : HostAction} (h : HostMove a) (s : State) : ∃ t, perform a s = .next t := by
  cases a with
  | wr n v =>
    obtain ⟨r, rfl, writable, typed⟩ := h
    by_cases hr : r = .cmd
    · subst hr
      cases v with
      | num x => cases typed
      | word w =>
        cases hd : decode w with
        | ok i =>
          obtain ⟨t, ht, -⟩ := exec_cases i s
          exact ⟨t, (issueCommand_of_ok hd s).trans ht⟩
        | error k => exact ⟨_, issueCommand_of_error hd s⟩
    · obtain ⟨p, hp⟩ := writeParam_of_rightType s.params writable hr typed
      exact ⟨_, hostWrite_of_writeParam (regOfNumber_regNumber r) hp⟩
  | rd n =>
    obtain ⟨r, -, hr, rfl⟩ := exists_readable_of_le n h
    obtain ⟨v, hv⟩ := readReg_of_ne_cmd hr s
    exact ⟨_, hostRead_of_readReg (regOfNumber_regNumber r) hv⟩
  | read k form =>
    obtain ⟨q, hq⟩ := hostReadSlot_eq k form s
    exact ⟨_, hq⟩
  | load k image => exact ⟨_, rfl⟩
  | pad d a n => exact ⟨_, rfl⟩
  | reset => exact ⟨_, rfl⟩

/-- What an action puts in front of the actions to come is a `LOAD`, which has a meaning. -/
theorem Performed.safeRun {s t : State} {a : HostAction} (h : Performed s a t) (hs : SafeRun s) : SafeRun t := by
  cases h with
  | success ran =>
    obtain ⟨-, inbox, -⟩ := ran.params_lists
    rw [SafeRun, inbox]
    exact hs
  | pad d n l q => exact List.forall_mem_cons.mpr ⟨trivial, hs⟩
  | error | param | reply | load | reset => exact hs

/-! ### What a register reads after a write (R161, R162) -/

/-- The value a register keeps of one that is written to it: of `CTRL` only bit 0 (R42). -/
def keptValue : Reg → Value → Value
  | .ctrl, .word w => .word (w &&& ctrlMask)
  | _, v => v

theorem readReg_of_writeParam {r : Reg} {v : Value} {s : State} {p : Params}
    (h : writeParam r v s.params = some p) : readReg r { s with params := p } = some (keptValue r v) := by
  unfold writeParam at h
  split at h <;> cases h <;> rfl

/-- A write of one parameter leaves the value of every other register. -/
theorem readReg_of_writeParam_ne {r r' : Reg} {v : Value} {s : State} {p : Params}
    (h : writeParam r v s.params = some p) (hne : r' ≠ r) : readReg r' { s with params := p } = readReg r' s := by
  -- Each arm of the write against each arm of the read: it is the same register, or the field is another one.
  unfold writeParam at h
  split at h <;> cases h
  all_goals cases r' <;> simp_all [readReg]

/-! ### Refused accesses (R46) -/

theorem readOnly_of_number : ∀ n : Fin 32, n = 21 ∨ n = 23 ∨ (24 ≤ n ∧ n ≤ 28) →
    ∃ r ∈ allRegs, regOfNumber n = some r ∧ hostWritable r = false := by decide

theorem regOfNumber_reserved : ∀ n : Fin 32, 30 ≤ n → regOfNumber n = none := by decide

theorem hostRead_of_none {n : Fin 32} (h : regOfNumber n = none) (s : State) :
    hostRead n s = .refused (.reservedRegister n) := by
  simp only [hostRead, h]

theorem hostWrite_of_none {n : Fin 32} (h : regOfNumber n = none) (v : Value) (s : State) :
    hostWrite n v s = .refused (.reservedRegister n) := by
  simp only [hostWrite, h]

/-! ### A slot read whole (R53, R163) -/

theorem memRead_all (s : State) (k : Nat) : memRead s k 0 (2 * bufLen s k) = bufferBytes (slotBuf s k) := by
  have length : (bufferBytes (slotBuf s k)).length = 2 * bufLen s k := by
    simp [bufferBytes, bufLen, sampleBytes, List.length_flatMap, Nat.mul_comm]
  rw [memRead, List.drop_zero, ← length, List.take_length]

/-! ### Commands directly after reset (R49, R192) -/

theorem oscstepLegal_after_reset : OscstepLegal State.reset.params :=
  ⟨by decide +kernel, by decide +kernel, by decide⟩

theorem envevalLegal_after_reset : EnvevalLegal State.reset.params :=
  ⟨⟨by decide, by decide, by decide, by decide +kernel, by decide⟩, by decide⟩

theorem renderLength_after_reset : renderLength State.reset.params = 0 := by decide +kernel

theorem renderLegal_after_reset (c : Config) : RenderLegal c State.reset.params where
  srate := oscstepLegal_after_reset.srate
  dur := by decide
  pw := oscstepLegal_after_reset.pw
  length := renderLength_after_reset.trans_le (Int.natCast_nonneg _)
  wave := oscstepLegal_after_reset.wave
  amp := by decide +kernel
  env := envevalLegal_after_reset.env

theorem mixLegal_after_reset (c : Config) {a n : Field8} (hn : n ≠ 0) (range : a.toNat + n.toNat ≤ 256) :
    MixLegal c a n State.reset := ⟨range, hn, fun _ _ => Nat.zero_le _⟩

theorem mixLength_after_reset {a n : Field8} (hn : n ≠ 0) : mixLength a n State.reset = 0 := by
  obtain ⟨k, -, hk⟩ := (mixLength_spec a n State.reset).2 hn
  exact hk.symm

theorem lowpassLegal_after_reset : LowpassLegal State.reset.params := ⟨by decide +kernel⟩

/-- `RDELAY` is 0, so the delay is below one sample (R141). -/
theorem reverbDelay_after_reset (c : Config) : reverbDelay c State.reset.params = 0 := by
  have h : State.reset.params.rdelay * State.reset.params.srate / 1000 = 0 := by decide +kernel
  rw [reverbDelay, h, Config.round_below] <;> norm_num

theorem runReverb_after_reset (c : Config) (d a : Field8) :
    runReverb c d a State.reset = raise .delay State.reset := by
  have rated : ¬State.reset.params.srate ≤ 0 := not_le.mpr oscstepLegal_after_reset.srate
  have raised : firstCause (reverbChecks c State.reset.params) = some .delay := by
    simp [reverbChecks, firstCause, rated, reverbDelay_after_reset]
  rw [runReverb, raised]

theorem bufLen_after_reset (k : Nat) : bufLen State.reset k = 0 := rfl

end Sys2Proof.Machine

open Sys2Proof Sys2Proof.Machine

/-- Settles O28, by the cases of what an action of the host can do. -/
theorem stepKeepsTheInvariant : Obligations.StepKeepsTheInvariant := by
  intro s t hs h
  rcases step_next h with ⟨-, rfl⟩ | ⟨a, rest, -, performed⟩
  · exact hs
  · exact performed.keeps_inv (hs.with_lists rest s.outbox)

/-- Settles O29, by the reset value of each field the invariant speaks of. -/
theorem resetSatisfiesTheInvariant : Obligations.ResetSatisfiesTheInvariant := inv_reset

/-- Settles O24: an error status and a success status are legal. -/
theorem statusIsLegalAfterEveryCommand : Obligations.StatusIsLegalAfterEveryCommand := by
  intro i s t h
  rcases exec_next h with ⟨e, rfl⟩ | success
  · exact legalStatus_errorStatus e
  · exact success.status_legal

/-- Settles O25: an error changes `STATUS` alone, and a success what its command may write. -/
theorem commandsWriteOnlyTheirRegisters : Obligations.CommandsWriteOnlyTheirRegisters := by
  intro i s t hs h
  rcases exec_next h with ⟨e, rfl⟩ | success
  · exact ⟨rfl, rfl, rfl, fun _ _ _ => rfl, fun _ => rfl, fun _ => rfl, fun _ _ _ => rfl, fun _ => rfl,
      fun _ _ _ => rfl⟩
  · obtain ⟨params, inbox, outbox⟩ := success.params_lists
    refine ⟨params, inbox, outbox, success.osc_of_ne, success.oscout_of_ne, success.envout_of_ne,
      fun mix reverb lowpass => success.clipcnt_of_not_effect fun d kind => ?_, success.slots_of_none,
      fun k hk => readByte_congr (success.slotBuf_of_ne hs hk)⟩
    cases kind with
    | mix d a n => exact mix d a n rfl
    | reverb d a => exact reverb d a rfl
    | lowpass d a => exact lowpass d a rfl

/-- Settles O26, by the cases of what an action of the host can do. -/
theorem onlyResetLowersClipcnt : Obligations.OnlyResetLowersClipcnt := by
  intro s t h notReset
  rcases step_next h with ⟨-, rfl⟩ | ⟨a, rest, hinbox, performed⟩
  · exact le_rfl
  · exact performed.clipcnt_le (s := { s with inbox := rest }) fun ha => notReset (by rw [hinbox, ha]; rfl)

/-- Settles O30: an action with a meaning is answered, and leaves only such actions to come. -/
theorem safeRunsAreNeverRefused : Obligations.SafeRunsAreNeverRefused := by
  intro s hs
  cases hinbox : s.inbox with
  | nil => exact ⟨s, step_of_inbox_nil hinbox, hs⟩
  | cons a rest =>
    rw [SafeRun, hinbox] at hs
    obtain ⟨move, safe⟩ := List.forall_mem_cons.mp hs
    obtain ⟨t, ht⟩ := exists_perform_of_hostMove move { s with inbox := rest }
    exact ⟨t, (step_of_inbox_cons hinbox).trans ht, (perform_next ht).safeRun safe⟩

/-- Settles O34: the sample is in range, and the advance keeps the ranges. -/
theorem oscillatorStaysInRange : Obligations.OscillatorStaysInRange := by
  intro s legal p0 p1 n0 n1
  have hr : s.osc.InRange := ⟨⟨p0, p1⟩, n0, n1⟩
  obtain ⟨w, -, ht⟩ := runOscstep_of_legal (c := Config.machine) legal
  obtain ⟨out0, out1⟩ := oscOutput_mem Config.machine w s.params.pw hr
  obtain ⟨⟨q0, q1⟩, m0, m1⟩ := oscAdvance_inRange w s.params.srate s.params.oscf hr
  exact ⟨_, congrArg Host.Outcome.next ht, out0, out1, q0, q1, m0, m1⟩

/-- Settles O7, by the two outcomes of the decoder. -/
theorem stepRunsTheDecodedCommand : Obligations.StepRunsTheDecodedCommand := by
  intro s w rest hinbox
  have issued : step s = issueCommand w { s with inbox := rest } :=
    (step_of_inbox_cons hinbox).trans (hostWrite_cmd w _)
  exact ⟨fun i hi => issued.trans (issueCommand_of_ok hi _), fun k hk => issued.trans (issueCommand_of_error hk _)⟩

/-- Settles O23, by evaluation of each row. -/
theorem errorStatusTable : Obligations.ErrorStatusTable := by
  unfold Obligations.ErrorStatusTable
  decide

/-- Settles O50: the number of a register selects its arm of the write, and an arm changes its own parameter only. -/
theorem writtenRegisterReadsBack : Obligations.WrittenRegisterReadsBack := by
  refine ⟨fun s w => ⟨rfl, rfl⟩, fun s x => ?_, fun s r v writable hne typed => ?_⟩
  · exact ⟨rfl, rfl, rfl, rfl, rfl, rfl, rfl, rfl, rfl, rfl, rfl, rfl, rfl, rfl, rfl, rfl, rfl, rfl, rfl, rfl⟩
  · obtain ⟨p, hp⟩ := writeParam_of_rightType s.params writable hne typed
    exact ⟨_, hostWrite_of_writeParam (regOfNumber_regNumber r) hp, readReg_of_writeParam hp,
      fun r' hr' => readReg_of_writeParam_ne hp hr', rfl⟩

/-- Settles O51: the number of a register selects its arm of the read; the byte view of a slot is read whole. -/
theorem readsReturnAndChangeNothing : Obligations.ReadsReturnAndChangeNothing := by
  refine fun s => ⟨?_, fun r hr => ?_, fun k => rfl, fun k => ?_⟩
  · exact ⟨rfl, rfl, rfl, rfl, rfl, rfl, rfl, rfl, rfl, rfl, rfl, rfl, rfl, rfl, rfl, rfl, rfl, rfl, rfl, rfl, rfl,
      rfl, rfl, rfl, rfl, by rw [BitVec.ofNat_toNat]; rfl, rfl, rfl, rfl⟩
  · obtain ⟨v, hv⟩ := readReg_of_ne_cmd hr s
    exact ⟨v, hv, hostRead_of_readReg (regOfNumber_regNumber r) hv⟩
  · rw [← memRead_all]
    rfl

/-- Settles O52, by the kinds of access R46 names. -/
theorem undefinedAccessesAreRefused : Obligations.UndefinedAccessesAreRefused := by
  refine fun s v => ⟨fun n hn => ?_, rfl, fun n hn => ?_⟩
  · obtain ⟨r, -, hr, readOnly⟩ := readOnly_of_number n hn
    exact ⟨r, hostWrite_of_readOnly hr readOnly v s⟩
  · have reserved := regOfNumber_reserved n hn
    exact ⟨hostWrite_of_none reserved v s, hostRead_of_none reserved s⟩

/-- Settles O56, by reading each register of the reset state. -/
theorem resetTable : Obligations.ResetTable :=
  ⟨rfl, rfl, rfl, rfl, rfl, rfl, rfl, rfl, rfl, rfl, rfl, rfl, rfl, rfl, rfl, rfl, rfl, rfl, rfl, rfl, rfl, rfl, rfl,
    rfl, rfl, rfl, rfl, rfl, rfl, fun _ => rfl⟩

/-- Settles O57: the reset event puts the reset state under the two lists, which no register and no slot reads. -/
theorem resetEventGivesTheResetState : Obligations.ResetEventGivesTheResetState := by
  refine fun s => ⟨_, rfl, rfl, rfl, rfl, rfl, rfl, rfl, fun r => ?_, fun _ => rfl, rfl, rfl⟩
  cases r <;> rfl

/-- Settles O58: every command but `REVERB` is legal after reset, and works on empty slots. -/
theorem everyCommandAfterResetHasItsOutcome : Obligations.EveryCommandAfterResetHasItsOutcome := by
  intro d a n hn range
  let c := Config.machine
  refine ⟨⟨_, rfl, rfl⟩, ⟨_, rfl, rfl⟩, ?oscstep, ?enveval, ?render, ?mix, ?lowpass, ?reverb⟩
  case oscstep =>
    obtain ⟨w, hw, ht⟩ := runOscstep_of_legal (c := c) oscstepLegal_after_reset
    obtain rfl : Waveform.sine = w := Option.some.inj hw
    have still : fracNum (phaseAdvance 44100 0 0) = 0 := by decide +kernel
    exact ⟨_, congrArg Host.Outcome.next ht, rfl, c.sinProperties.zero, (oscAdvance_phase _ _ _ _).trans still⟩
  case enveval =>
    have silent : env Params.reset 0 = 0 := by decide +kernel
    exact ⟨_, execEnveval_of_legal envevalLegal_after_reset, rfl, silent⟩
  case render =>
    obtain ⟨w, -, ht⟩ := runRender_of_legal (renderLegal_after_reset c) d
    rw [renderLength_after_reset, Int.toNat_zero, renderLoop_zero_stream] at ht
    exact ⟨_, congrArg Host.Outcome.next ht, rfl, rfl⟩
  case mix =>
    have ht := runMix_of_legal (mixLegal_after_reset c hn range) d
    rw [mixLength_after_reset hn, mixLoop_zero] at ht
    exact ⟨_, congrArg Host.Outcome.next ht, rfl, rfl⟩
  case lowpass =>
    have ht := runLowpass_of_legal c lowpassLegal_after_reset d a
    rw [bufLen_after_reset, lowpassLoop_zero_stream] at ht
    exact ⟨_, congrArg Host.Outcome.next ht, rfl, rfl⟩
  case reverb => exact congrArg Host.Outcome.next (runReverb_after_reset c d a)

end

section
/-! PROOFS. Memory (spec/20_memory.md): the byte view of a slot, a `LOAD` (spec/46_system.md R164), and that what a
command stores does not depend on where. -/

namespace Sys2Proof.Machine

/-! ### The byte view (R53) -/

theorem bufferBytes_cons (x : Int) (l : Buffer) :
    bufferBytes (x :: l) =
      (BitVec.ofInt 16 x).extractLsb' 0 8 :: (BitVec.ofInt 16 x).extractLsb' 8 8 :: bufferBytes l := rfl

@[simp] theorem bufferBytes_length (l : Buffer) : (bufferBytes l).length = 2 * l.length := by
  induction l with
  | nil => rfl
  | cons x l ih =>
    rw [bufferBytes_cons, List.length_cons, List.length_cons, List.length_cons, ih]
    omega

/-- Bytes `2i` and `2i + 1` are those of sample `i`, and there are none where there is no sample `i`. -/
theorem bufferBytes_getElem? (l : Buffer) (i : Nat) :
    (bufferBytes l)[2 * i]? = l[i]?.map (fun x => (BitVec.ofInt 16 x).extractLsb' 0 8) ∧
    (bufferBytes l)[2 * i + 1]? = l[i]?.map (fun x => (BitVec.ofInt 16 x).extractLsb' 8 8) := by
  induction l generalizing i with
  | nil => exact ⟨rfl, rfl⟩
  | cons x l ih =>
    cases i with
    | zero => exact ⟨rfl, rfl⟩
    | succ i => exact ih i

theorem readByte_eq (s : State) (k a : Nat) : readByte s k a = (bufferBytes (slotBuf s k))[a]? := by
  rw [readByte, memRead, List.head?_take, if_neg one_ne_zero, List.head?_drop]

theorem getElem?_slotBuf {s : State} {k i : Nat} (h : i < bufLen s k) : (slotBuf s k)[i]? = some (bufRead s k i) := by
  rw [bufRead, List.getD_eq_getElem _ _ h, List.getElem?_eq_getElem h]

/-! ### What `LOAD` does with an image (R164) -/

theorem raise_loadImage (s : State) : raise .loadImage s = { s with status := 0x00000D01 } := rfl

/-- The one word that is no sample is the one read as -32768 (R57). -/
theorem lowest_mem_map_toInt {l : List (BitVec 16)} : -32768 ∈ l.map BitVec.toInt ↔ 0x8000 ∈ l :=
  List.mem_map_of_injective (a := (0x8000 : BitVec 16)) fun _ _ => BitVec.eq_of_toInt_eq

theorem runLoad_samples (c : Config) (d : Field8) (l : List (BitVec 16)) (s : State) :
    runLoad c d (.samples l) s =
      if c.bufCap < l.length ∨ 0x8000 ∈ l then raise .loadImage s else bufWrite d.toNat (l.map BitVec.toInt) s := by
  simp only [runLoad, imageSamples, List.length_map, lowest_mem_map_toInt]

/-- An image that stands for no samples is an error. -/
theorem runLoad_of_none {image : Image} (h : imageSamples image = none) (c : Config) (d : Field8) (s : State) :
    runLoad c d image s = raise .loadImage s := by
  rw [runLoad, h]

/-- `LOAD` sees of an image only the samples it stands for. -/
theorem runLoad_congr {image image' : Image} (h : imageSamples image = imageSamples image') (c : Config) (d : Field8)
    (s : State) : runLoad c d image s = runLoad c d image' s := by
  rw [runLoad, runLoad, h]

theorem samplesOfBytes_odd {l : List Byte} (h : l.length % 2 = 1) : samplesOfBytes l = none := by
  induction l using samplesOfBytes.induct with
  | case1 => cases h
  | case2 => rfl
  | case3 lo hi rest ih =>
    have odd : rest.length % 2 = 1 := by
      rw [List.length_cons, List.length_cons] at h
      omega
    rw [samplesOfBytes, ih odd, Option.map_none]

/-- The byte image of a list of words stands for the same samples as the list. -/
theorem samplesOfBytes_flatMap (l : List (BitVec 16)) :
    samplesOfBytes (l.flatMap fun x => [x.extractLsb' 0 8, x.extractLsb' 8 8]) = some (l.map BitVec.toInt) := by
  induction l with
  | nil => rfl
  | cons x l ih =>
    simp only [List.flatMap_cons, List.cons_append, List.nil_append, samplesOfBytes, ih,
      BitVec.extractLsb'_append_extractLsb', Option.map_some, List.map_cons]

/-! ### The destination of a result (R64) -/

theorem runReverb_of_legal {c : Config} {s : State} (h : ReverbLegal c s.params) (d a : Field8) :
    runReverb c d a s = storeResult d (reverbLoop c a s (bufLen s a.toNat)).out
      (reverbLoop c a s (bufLen s a.toNat)).q s := by
  rcases runReverb_cases c d a s with ⟨e, raised, -⟩ | ⟨-, ht⟩
  · cases (reverbChecks_none.mpr h).symm.trans raised
  · exact ht

/-- A command that, whatever its destination, stores the stream `o` drawn from the state before it, gives one result
in every destination. -/
theorem result_eq_of_stores {i : Field8 → Instr} {o : Stream} {s t t' : State} {d d' : Field8}
    (hs : Memory.wf s.slots = true) (stores : ∀ d, exec (i d) s = .next (storeResult d o.out o.q s))
    (ht : exec (i d) s = .next t) (ht' : exec (i d') s = .next t') :
    slotBuf t d.toNat = slotBuf t' d'.toNat ∧ t.status = t'.status ∧ t.clipcnt = t'.clipcnt := by
  obtain rfl := Host.Outcome.next.inj ((stores d).symm.trans ht)
  obtain rfl := Host.Outcome.next.inj ((stores d').symm.trans ht')
  refine ⟨?_, rfl, rfl⟩
  rw [slotBuf_storeResult _ _ _ _ _ hs, slotBuf_storeResult _ _ _ _ _ hs, if_pos rfl, if_pos rfl]

end Sys2Proof.Machine

open Sys2Proof Sys2Proof.Machine

/-- Settles O27: the stream each of the three commands stores is drawn from the state before it, and names no
destination. -/
theorem resultDoesNotDependOnTheDestination : Obligations.ResultDoesNotDependOnTheDestination := by
  intro s d d' a n hs
  refine ⟨fun t t' legal => ?mix, fun t t' legal => ?reverb, fun t t' legal => ?lowpass⟩
  case mix =>
    exact result_eq_of_stores (i := (.mix · a n)) hs fun d => congrArg Host.Outcome.next (runMix_of_legal legal d)
  case reverb =>
    exact result_eq_of_stores (i := (.reverb · a)) hs fun d =>
      congrArg Host.Outcome.next (runReverb_of_legal legal d a)
  case lowpass =>
    exact result_eq_of_stores (i := (.lowpass · a)) hs fun d =>
      congrArg Host.Outcome.next (runLowpass_of_legal _ legal d a)

/-- Settles O53: a byte read is an element of the byte view, which holds two bytes for each sample. -/
theorem byteViewIsLittleEndian : Obligations.ByteViewIsLittleEndian := by
  refine fun s k => ⟨?_, fun a past => ?_, fun i hi => ⟨?_, ?_⟩⟩
  · rw [memRead_all, bufferBytes_length, bufLen]
  · rw [readByte_eq, List.getElem?_eq_none]
    rwa [bufferBytes_length]
  · rw [readByte_eq, (bufferBytes_getElem? _ i).1, getElem?_slotBuf hi, Option.map_some]
  · rw [readByte_eq, (bufferBytes_getElem? _ i).2, getElem?_slotBuf hi, Option.map_some]

/-- Settles O54, by the test a list of words has to pass, and by the words a byte image stands for. -/
theorem loadReplacesOneSlotOrFails : Obligations.LoadReplacesOneSlotOrFails := by
  intro s d hs
  refine ⟨fun l fits samples => ?stored, fun l bad => ?failed, fun l odd => ?odd, fun l => ?bytes⟩
  case stored =>
    have good : ¬(Config.machine.bufCap < l.length ∨ 0x8000 ∈ l) :=
      not_or.mpr ⟨not_lt.mpr fits, fun lowest => samples _ lowest rfl⟩
    refine ⟨bufWrite d.toNat (l.map BitVec.toInt) s, ?_, ?_, fun k hk => readByte_congr ?_, rfl⟩
    · exact congrArg Host.Outcome.next ((runLoad_samples Config.machine d l s).trans (if_neg good))
    · rw [slotBuf_bufWrite _ _ _ _ hs, if_pos rfl]
    · rw [slotBuf_bufWrite _ _ _ _ hs, if_neg hk.symm]
  case failed =>
    have raised := (runLoad_samples Config.machine d l s).trans (if_pos bad)
    exact congrArg Host.Outcome.next (raised.trans (raise_loadImage s))
  case odd =>
    have raised := runLoad_of_none (image := .bytes l) (samplesOfBytes_odd odd) Config.machine d s
    exact congrArg Host.Outcome.next (raised.trans (raise_loadImage s))
  case bytes =>
    have sameSamples := samplesOfBytes_flatMap l
    exact congrArg Host.Outcome.next (runLoad_congr (image := .bytes _) (image' := .samples l) sameSamples _ _ _)

end

section
/-! PROOFS. Encoding (spec/30_encoding.md): the fields of a word determine it, the decoder answers every word as R73 and
R74 say (`decode_sound`), so it accepts exactly the encodings of the well-formed commands (`decode_eq_ok_iff`) and
rejects exactly the words R73 names (`decode_eq_error_iff`); a pseudo-instruction of R77 is a list of host actions, and
each takes one step. -/

namespace Sys2Proof

/-! ### A word and its fields (R70) -/

theorem formatC_eq_iff {op d a n : Field8} {w : Word} :
    formatC op d a n = w ↔ opField w = op ∧ dstField w = d ∧ srcField w = a ∧ cntField w = n := by
  constructor
  · rintro rfl
    exact ⟨opField_formatC .., dstField_formatC .., srcField_formatC .., cntField_formatC ..⟩
  · rintro ⟨rfl, rfl, rfl, rfl⟩
    exact formatC_fields w

theorem opField_and (w m : Word) : opField (w &&& m) = opField w &&& opField m := BitVec.extractLsb'_and
theorem dstField_and (w m : Word) : dstField (w &&& m) = dstField w &&& dstField m := BitVec.extractLsb'_and
theorem srcField_and (w m : Word) : srcField (w &&& m) = srcField w &&& srcField m := BitVec.extractLsb'_and
theorem cntField_and (w m : Word) : cntField (w &&& m) = cntField w &&& cntField m := BitVec.extractLsb'_and

theorem field_and_ones (x : Field8) : x &&& 255#8 = x := BitVec.and_allOnes

/-- A match under a mask is a match of each field under its part of the mask. -/
theorem and_formatC_eq_iff {w : Word} {mop md ma mn op d a n : Field8} :
    w &&& formatC mop md ma mn = formatC op d a n ↔
      opField w &&& mop = op ∧ dstField w &&& md = d ∧ srcField w &&& ma = a ∧ cntField w &&& mn = n := by
  rw [eq_comm, formatC_eq_iff, opField_and, dstField_and, srcField_and, cntField_and, opField_formatC,
    dstField_formatC, srcField_formatC, cntField_formatC]

theorem and_op_iff {w : Word} {op : Field8} :
    w &&& formatC 0xFF 0 0 0 = formatC op 0 0 0 ↔ opField w = op := by
  simp [and_formatC_eq_iff, field_and_ones]

theorem and_op_cnt_iff {w : Word} {op : Field8} :
    w &&& formatC 0xFF 0 0 0xFF = formatC op 0 0 0 ↔ opField w = op ∧ cntField w = 0 := by
  simp [and_formatC_eq_iff, field_and_ones]

theorem and_op_src_cnt_iff {w : Word} {op : Field8} :
    w &&& formatC 0xFF 0 0xFF 0xFF = formatC op 0 0 0 ↔ opField w = op ∧ srcField w = 0 ∧ cntField w = 0 := by
  simp [and_formatC_eq_iff, field_and_ones]

theorem and_lowByte_toNat (w : Word) : (w &&& 0x000000FF).toNat = (opField w).toNat := by
  rw [opField_toNat, BitVec.toNat_and]
  exact Nat.and_two_pow_sub_one_eq_mod w.toNat 8

/-! ### The rows of the opcode map (R72) -/

/-- Under the full mask only the encoding itself matches. -/
theorem encode_fullMask_iff {i : Instr} {w : Word} (hi : i.wf = true) :
    encode i = w ∧ i.wf = true ↔ w &&& 0xFFFFFFFF = encode i := by
  have full : w &&& 0xFFFFFFFF = w := BitVec.and_allOnes
  rw [full, and_iff_left hi, eq_comm]

theorem encode_render_iff {w : Word} {d : Field8} :
    encode (.render d) = w ∧ Instr.wf (.render d) = true ↔
      w &&& formatC 0xFF 0 0xFF 0xFF = formatC 0x04 0 0 0 ∧ d = dstField w := by
  rw [and_op_src_cnt_iff, encode, formatC_eq_iff]
  exact ⟨fun ⟨⟨hop, hd, zero⟩, _⟩ => ⟨⟨hop, zero⟩, hd.symm⟩, fun ⟨⟨hop, zero⟩, hd⟩ => ⟨⟨hop, hd.symm, zero⟩, rfl⟩⟩

theorem encode_mix_iff {w : Word} {d a n : Field8} :
    encode (.mix d a n) = w ∧ Instr.wf (.mix d a n) = true ↔
      w &&& formatC 0xFF 0 0 0 = formatC 0x05 0 0 0 ∧ d = dstField w ∧ a = srcField w ∧ n = cntField w ∧
        a.toNat + n.toNat ≤ slotCount := by
  rw [and_op_iff, encode, formatC_eq_iff, Instr.wf, decide_eq_true_iff]
  exact ⟨fun ⟨⟨hop, hd, ha, hn⟩, range⟩ => ⟨hop, hd.symm, ha.symm, hn.symm, range⟩,
    fun ⟨hop, hd, ha, hn, range⟩ => ⟨⟨hop, hd.symm, ha.symm, hn.symm⟩, range⟩⟩

/-- The row of a command with a destination and one source. -/
theorem encode_oneSource_iff {i : Instr} {w : Word} {op d a : Field8} (he : encode i = formatC op d a 0)
    (hi : i.wf = true) :
    encode i = w ∧ i.wf = true ↔
      w &&& formatC 0xFF 0 0 0xFF = formatC op 0 0 0 ∧ d = dstField w ∧ a = srcField w := by
  rw [and_op_cnt_iff, he, formatC_eq_iff]
  exact ⟨fun ⟨⟨hop, hd, ha, zero⟩, _⟩ => ⟨⟨hop, zero⟩, hd.symm, ha.symm⟩,
    fun ⟨⟨hop, zero⟩, hd, ha⟩ => ⟨⟨hop, hd.symm, ha.symm, zero⟩, hi⟩⟩

/-! ### When a word encodes no command (R73) -/

/-- The condition of R73 (a), (b) or (c). -/
def Illegal.Holds (w : Word) : Illegal → Prop
  | .reservedOpcode => 8 ≤ (opField w).toNat
  | .unusedField =>
    ((opField w).toNat ≤ 3 ∧ ¬(dstField w = 0 ∧ srcField w = 0 ∧ cntField w = 0)) ∨
    ((opField w).toNat = 4 ∧ ¬(srcField w = 0 ∧ cntField w = 0)) ∨
    (((opField w).toNat = 6 ∨ (opField w).toNat = 7) ∧ cntField w ≠ 0)
  | .mixRange => (opField w).toNat = 5 ∧ ¬(srcField w).toNat + (cntField w).toNat ≤ slotCount

theorem cnt_eq_zero_iff (w : Word) : cntField w = 0 ↔ w.toNat / 2 ^ 24 = 0 := by
  have hw := w.isLt
  have hn : cntField w = 0 ↔ (cntField w).toNat = 0 := BitVec.toNat_eq
  rw [hn, cntField_toNat]
  omega

theorem src_cnt_eq_zero_iff (w : Word) : srcField w = 0 ∧ cntField w = 0 ↔ w.toNat / 2 ^ 16 = 0 := by
  have ha : srcField w = 0 ↔ (srcField w).toNat = 0 := BitVec.toNat_eq
  rw [cnt_eq_zero_iff, ha, srcField_toNat]
  omega

theorem dst_src_cnt_eq_zero_iff (w : Word) :
    dstField w = 0 ∧ srcField w = 0 ∧ cntField w = 0 ↔ w.toNat / 2 ^ 8 = 0 := by
  have hd : dstField w = 0 ↔ (dstField w).toNat = 0 := BitVec.toNat_eq
  rw [src_cnt_eq_zero_iff, hd, dstField_toNat]
  omega

theorem Illegal.holds_reservedOpcode (w : Word) : Illegal.reservedOpcode.Holds w ↔ 8 ≤ w.toNat % 2 ^ 8 := by
  rw [Holds, opField_toNat]

theorem Illegal.holds_unusedField (w : Word) :
    Illegal.unusedField.Holds w ↔
      (w.toNat % 2 ^ 8 ≤ 3 ∧ w.toNat / 2 ^ 8 ≠ 0) ∨ (w.toNat % 2 ^ 8 = 4 ∧ w.toNat / 2 ^ 16 ≠ 0) ∨
        ((w.toNat % 2 ^ 8 = 6 ∨ w.toNat % 2 ^ 8 = 7) ∧ w.toNat / 2 ^ 24 ≠ 0) := by
  rw [Holds, opField_toNat, dst_src_cnt_eq_zero_iff, src_cnt_eq_zero_iff, Ne, cnt_eq_zero_iff]

theorem Illegal.holds_mixRange (w : Word) :
    Illegal.mixRange.Holds w ↔
      w.toNat % 2 ^ 8 = 5 ∧ 256 < w.toNat / 2 ^ 16 % 2 ^ 8 + w.toNat / 2 ^ 24 := by
  have hw := w.isLt
  rw [Holds, opField_toNat, srcField_toNat, cntField_toNat, slotCount]
  omega

/-- The three conditions exclude each other: each speaks of other opcodes. -/
theorem Illegal.Holds.unique {w : Word} {k k' : Illegal} (h : k.Holds w) (h' : k'.Holds w) : k = k' := by
  cases k <;> cases k' <;> simp only [Holds, reduceCtorEq] at h h' ⊢ <;> omega

theorem opField_encode (i : Instr) : opField (encode i) = i.opcode := by
  cases i <;> exact opField_formatC ..

theorem Instr.opcode_lt_eight (i : Instr) : i.opcode.toNat < 8 := by
  cases i <;> simp [Instr.opcode]

/-- None of the three holds of the encoding of a well-formed command. -/
theorem Illegal.not_holds_encode {i : Instr} (hi : i.wf = true) (k : Illegal) : ¬k.Holds (encode i) := by
  intro holds
  cases k with
  | reservedOpcode =>
    rw [Holds, opField_encode] at holds
    exact not_le.mpr i.opcode_lt_eight holds
  | unusedField =>
    cases i <;>
      simp [Holds, encode, Instr.opcode, opField_formatC, dstField_formatC, srcField_formatC, cntField_formatC] at holds
  | mixRange =>
    obtain ⟨hop, range⟩ := holds
    rw [opField_encode] at hop
    cases i with
    | mix d a n =>
      rw [encode, srcField_formatC, cntField_formatC] at range
      exact range (of_decide_eq_true hi)
    | _ => cases hop

/-! ### What the decoder answers, said once (R72 to R74) -/

/-- What an answer of the decoder says of the word. -/
def Sound (w : Word) : Except Illegal Instr → Prop
  | .ok i => encode i = w ∧ i.wf = true
  | .error k => k.Holds w

theorem sound_ite {w : Word} {p : Prop} [Decidable p] {i : Instr} {k : Illegal} (ok : p → encode i = w ∧ i.wf = true)
    (error : ¬p → k.Holds w) : Sound w (if p then .ok i else .error k) := by
  split
  · next h => exact ok h
  · next h => exact error h

/-- The arm of a command without fields. -/
theorem sound_noFields {w : Word} {i : Instr} (hop : opField w = i.opcode) (bare : encode i = formatC i.opcode 0 0 0)
    (wf : i.wf = true) (low : i.opcode.toNat ≤ 3) :
    Sound w (if dstField w = 0 ∧ srcField w = 0 ∧ cntField w = 0 then .ok i else .error .unusedField) :=
  sound_ite (fun zero => ⟨bare.trans (formatC_eq_iff.mpr ⟨hop, zero⟩), wf⟩) fun used => .inl ⟨hop ▸ low, used⟩

theorem decode_sound (w : Word) : Sound w (decode w) := by
  have opcode {op : Field8} (h : (opField w).toNat = op.toNat) : opField w = op := BitVec.eq_of_toNat_eq h
  unfold decode
  split
  next h => exact sound_noFields (opcode h) rfl rfl (by decide)
  next h => exact sound_noFields (opcode h) rfl rfl (by decide)
  next h => exact sound_noFields (opcode h) rfl rfl (by decide)
  next h => exact sound_noFields (opcode h) rfl rfl (by decide)
  next h =>
    exact sound_ite (fun zero => ⟨formatC_eq_iff.mpr ⟨opcode h, rfl, zero⟩, rfl⟩) fun used => .inr (.inl ⟨h, used⟩)
  next h =>
    exact sound_ite (fun range => ⟨formatC_eq_iff.mpr ⟨opcode h, rfl, rfl, rfl⟩, decide_eq_true range⟩)
      fun range => ⟨h, range⟩
  next h =>
    exact sound_ite (fun zero => ⟨formatC_eq_iff.mpr ⟨opcode h, rfl, rfl, zero⟩, rfl⟩)
      fun used => .inr (.inr ⟨.inl h, used⟩)
  next h =>
    exact sound_ite (fun zero => ⟨formatC_eq_iff.mpr ⟨opcode h, rfl, rfl, zero⟩, rfl⟩)
      fun used => .inr (.inr ⟨.inr h, used⟩)
  next =>
    simp only [imp_false] at *
    show 8 ≤ (opField w).toNat
    omega

theorem decode_encode {i : Instr} (hi : i.wf = true) : decode (encode i) = .ok i := by
  cases i with
  | mix d a n =>
    have range : a.toNat + n.toNat ≤ slotCount := of_decide_eq_true hi
    simp [decode, encode, Instr.opcode, opField_formatC, dstField_formatC, srcField_formatC, cntField_formatC, range]
  | _ =>
    simp [decode, encode, Instr.opcode, opField_formatC, dstField_formatC, srcField_formatC, cntField_formatC]

/-- The decoder accepts exactly the encodings of the well-formed commands. -/
theorem decode_eq_ok_iff {w : Word} {i : Instr} : decode w = .ok i ↔ encode i = w ∧ i.wf = true := by
  constructor
  · intro h
    have sound := decode_sound w
    rwa [h] at sound
  · rintro ⟨rfl, hi⟩
    exact decode_encode hi

/-- The decoder rejects exactly the words R73 names, with the reason it names. -/
theorem decode_eq_error_iff {w : Word} {k : Illegal} : decode w = .error k ↔ k.Holds w := by
  have sound := decode_sound w
  constructor
  · intro h
    rwa [h] at sound
  · intro holds
    cases h : decode w with
    | ok i =>
      obtain ⟨rfl, hi⟩ := decode_eq_ok_iff.mp h
      exact absurd holds (k.not_holds_encode hi)
    | error k' =>
      rw [h] at sound
      rw [sound.unique holds]

end Sys2Proof

namespace Sys2Proof.Machine

theorem issueCommand_of_holds {w : Word} {k : Illegal} (h : k.Holds w) (s : State) :
    issueCommand w s = .next { s with status := errorStatus (.illegal k) } :=
  issueCommand_of_error (decode_eq_error_iff.mpr h) s

/-! ### One step of a pseudo-instruction (R77) -/

/-- A step that writes a parameter register (R161). -/
theorem step_of_writeParam {s : State} {r : Reg} {v : Value} {rest : List HostAction} {p : Params}
    (h : s.inbox = .wr (regNumber r) v :: rest) (written : writeParam r v s.params = some p) :
    step s = .next { s with inbox := rest, params := p } :=
  (step_of_inbox_cons h).trans
    (hostWrite_of_writeParam (s := { s with inbox := rest }) (regOfNumber_regNumber r) written)

/-- Of an image that stands for samples, `LOAD` checks the length only (R164). -/
theorem runLoad_of_samples {image : Image} {l : Buffer} (h : imageSamples image = some l)
    (samples : ∀ x ∈ l, IsSample x) (c : Config) (d : Field8) (s : State) :
    runLoad c d image s = if c.bufCap < l.length then raise .loadImage s else bufWrite d.toNat l s := by
  have lowest : -32768 ∉ l := fun hx => absurd (samples _ hx).1 (by decide)
  simp only [runLoad, h, lowest, or_false]

theorem isSample_of_mem_padded {n : Nat} {l : Buffer} (h : ∀ x ∈ l, IsSample x) :
    ∀ x ∈ List.replicate n 0 ++ l, IsSample x := by
  intro x hx
  rcases List.mem_append.mp hx with zero | hx
  · obtain rfl := List.eq_of_mem_replicate zero
    exact ⟨by decide, by decide⟩
  · exact h x hx

/-- The first step of `PAD`: the reply, and the load as the host's next action. -/
theorem step_of_pad {s : State} {d a : Field8} {n : Nat} {rest : List HostAction} (h : s.inbox = .pad d a n :: rest) :
    step s = .next { s with
      inbox := paddedLoad d n (slotBuf s a.toNat) :: rest
      outbox := s.outbox ++ [.samples (slotBuf s a.toNat)] } :=
  (step_of_inbox_cons h).trans (hostPad_next d a n _)

/-- The second step of `PAD`, the load of the padded list (R198). -/
theorem step_of_paddedLoad {s : State} {d : Field8} {n : Nat} {l : Buffer} {rest : List HostAction}
    (h : s.inbox = paddedLoad d n l :: rest) (samples : ∀ x ∈ l, IsSample x) :
    step s = .next (if Config.machine.bufCap < n + l.length then raise .loadImage { s with inbox := rest }
      else bufWrite d.toNat (List.replicate n 0 ++ l) { s with inbox := rest }) := by
  have loaded := runLoad_of_samples (imageSamples_padded n l samples) (isSample_of_mem_padded samples) Config.machine d
    { s with inbox := rest }
  rw [List.length_append, List.length_replicate] at loaded
  exact (step_of_inbox_cons h).trans (congrArg Host.Outcome.next loaded)

end Sys2Proof.Machine

open Sys2Proof Sys2Proof.Machine

/-- Settles O1: each field of the encoding reads back, and selects the command's arm of the decoder. -/
theorem decodeEncodeRoundTrip : Obligations.DecodeEncodeRoundTrip := fun _ => decode_encode

/-- Settles O2, by what the decoder's answer says of the word. -/
theorem decodedWordIsTheEncoding : Obligations.DecodedWordIsTheEncoding := fun _ _ => decode_eq_ok_iff.mp

/-- Settles O3: a word is accepted as a command when its fields are the command's, and a match under a mask is a match
of fields. -/
theorem decoderFollowsTheOpcodeMap : Obligations.DecoderFollowsTheOpcodeMap := by
  intro w
  simp only [decode_eq_ok_iff]
  refine ⟨encode_fullMask_iff rfl, encode_fullMask_iff rfl, encode_fullMask_iff rfl, encode_fullMask_iff rfl,
    fun _ => encode_render_iff, fun _ _ _ => encode_mix_iff, fun _ _ => encode_oneSource_iff (op := 0x06) rfl rfl,
    fun _ _ => encode_oneSource_iff (op := 0x07) rfl rfl, fun reserved => ?_⟩
  rw [and_lowByte_toNat] at reserved
  exact decode_eq_error_iff.mpr reserved

/-- Settles O4: a rejected word is one whose condition of R73 holds, and a word of which none holds is accepted. -/
theorem illegalWordsRaiseInOrder : Obligations.IllegalWordsRaiseInOrder := by
  intro w s op unused range
  refine ⟨fun reserved => ?_, fun _ used => ?_, fun _ _ past => ?_, fun below fields slots => ?_⟩
  · exact issueCommand_of_holds (k := .reservedOpcode) ((Illegal.holds_reservedOpcode w).mpr reserved) s
  · exact issueCommand_of_holds (k := .unusedField) ((Illegal.holds_unusedField w).mpr used) s
  · exact issueCommand_of_holds (k := .mixRange) ((Illegal.holds_mixRange w).mpr past) s
  · cases h : decode w with
    | ok i => exact ⟨i, rfl, issueCommand_of_ok h s⟩
    | error k =>
      have holds := decode_eq_error_iff.mp h
      cases k with
      | reservedOpcode => exact absurd ((Illegal.holds_reservedOpcode w).mp holds) (not_le.mpr below)
      | unusedField => exact absurd ((Illegal.holds_unusedField w).mp holds) fields
      | mixRange => exact absurd ((Illegal.holds_mixRange w).mp holds) slots

/-- Settles O59: a write of a parameter register for each action of `SETENV`, `NOTEOFF` and `NONOTEOFF`; the reply, and
then the load of the padded list, for `PAD`. -/
theorem pseudoInstructionsDoWhatTheyExpandTo : Obligations.PseudoInstructionsDoWhatTheyExpandTo := by
  refine fun s rest => ⟨fun x y z w h => ?setenv, fun x h => ?noteoff, fun h => ?nonoteoff,
    fun d a n h hs samples => ?pad⟩
  case setenv =>
    exact ⟨_, _, _, step_of_writeParam h rfl, step_of_writeParam rfl rfl, step_of_writeParam rfl rfl,
      step_of_writeParam rfl rfl⟩
  case noteoff => exact ⟨_, step_of_writeParam h rfl, step_of_writeParam rfl rfl⟩
  case nonoteoff => exact step_of_writeParam h rfl
  case pad =>
    intro seen
    have loaded := step_of_paddedLoad (s := { seen with inbox := paddedLoad d n (slotBuf s a.toNat) :: rest }) rfl
      samples
    refine ⟨_, step_of_pad h, fun fits => ?_, fun long => ?_⟩
    · refine ⟨_, loaded.trans (congrArg Host.Outcome.next (if_neg (not_lt.mpr fits))), ?_, fun k hk => ?_, rfl⟩
      · exact (slotBuf_bufWrite _ _ _ seen hs).trans (if_pos rfl)
      · exact (slotBuf_bufWrite _ _ _ seen hs).trans (if_neg hk.symm)
    · exact loaded.trans (congrArg Host.Outcome.next (if_pos long))

/-- Settles O5, by evaluation of each word. -/
theorem writtenOutWordsDecode : Obligations.WrittenOutWordsDecode := by
  unfold Obligations.WrittenOutWordsDecode
  decide

end

section
/-! PROOFS. Oscillator (spec/40_oscillator.md): one call of the oscillator as a function of its waveform and frequency,
and the period of the shift register: a step is linear over GF(2), so a power of it is computed by squaring its matrix,
and the period of one value is found from the prime factors of 65535. -/

namespace Sys2Proof.Machine

/-! ### One call of the oscillator (R92, R99, R100, R103, R104) -/

theorem phaseAdvance_eq (srate f phase : Num) : phaseAdvance srate f phase = phase + |f| / srate := by
  rw [phaseAdvance, absNum_eq]

/-- Only the size of the frequency counts (R103). -/
theorem oscAdvance_congr_abs {f g : Num} (h : |f| = |g|) (w : Waveform) (srate : Num) (r : RenderState) :
    oscAdvance w srate f r = oscAdvance w srate g r := by
  simp only [oscAdvance, phaseAdvance_eq, h]

/-- The draw of the noise register (R100). -/
theorem oscAdvance_of_wrap {srate f : Num} {r : RenderState} (wrap : 1 ≤ phaseAdvance srate f r.phase) :
    oscAdvance .noise srate f r = { phase := fracNum (phaseAdvance srate f r.phase), lfsr := lfsrNext r.lfsr,
                                    nhold := noiseMap (lfsrNext r.lfsr) } :=
  if_pos ⟨rfl, wrap⟩

/-- Without a wrap, or with another waveform than Noise, the noise register stays (R100). -/
theorem oscAdvance_of_not_draw {w : Waveform} {srate f : Num} {r : RenderState}
    (keep : ¬(w = .noise ∧ 1 ≤ phaseAdvance srate f r.phase)) :
    oscAdvance w srate f r = { r with phase := fracNum (phaseAdvance srate f r.phase) } :=
  if_neg keep

/-- At frequency 0 a wrapped phase stays where it is (R104). -/
theorem oscAdvance_zero {r : RenderState} (h0 : 0 ≤ r.phase) (h1 : r.phase < 1) (w : Waveform) (srate : Num) :
    oscAdvance w srate 0 r = r := by
  have still : phaseAdvance srate 0 r.phase = r.phase := by simp [phaseAdvance_eq]
  rw [oscAdvance_of_not_draw fun draw => not_le.mpr h1 (still ▸ draw.2), still, fracNum_of_unit h0 h1]

theorem waveformOf_eq_noise_iff {w : Word} : waveformOf w = some .noise ↔ w = 5 := by
  constructor
  · intro h
    unfold waveformOf at h
    split at h
    case h_6 code => exact BitVec.eq_of_toNat_eq code
    all_goals cases h
  · rintro rfl
    rfl

/-! ### `OSCINIT` and `OSCSTEP` (R90, R91) -/

theorem exec_oscinit (s : State) :
    exec .oscinit s = .next { s with status := 0, osc := RenderState.fresh Config.machine } := rfl

/-- The state after one sample drawn with waveform `w`. -/
def drawSample (c : Config) (w : Waveform) (s : State) : State :=
  { s with
    status := 0
    oscout := oscOutput c w s.params.pw s.osc
    osc := oscAdvance w s.params.srate s.params.oscf s.osc }

/-- The state with another frequency in `OSCF`. -/
def State.withOscf (s : State) (f : Num) : State := { s with params := { s.params with oscf := f } }

/-- No check of `OSCSTEP` reads the frequency (R103). -/
theorem oscstepChecks_withOscf (s : State) (f : Num) :
    oscstepChecks (s.withOscf f).params = oscstepChecks s.params := rfl

theorem exec_oscstep_of_firstCause {s : State} {e : Cause} (h : firstCause (oscstepChecks s.params) = some e) :
    exec .oscstep s = .next { s with status := errorStatus e } := by
  rcases runOscstep_cases Config.machine s with ⟨e', he', raised⟩ | ⟨-, unraised, -⟩
  · obtain rfl := Option.some.inj (h.symm.trans he')
    exact congrArg Host.Outcome.next raised
  · cases h.symm.trans unraised

theorem exec_oscstep_of_legal {s : State} {w : Waveform} (legal : OscstepLegal s.params)
    (hw : waveformOf s.params.wave = some w) : exec .oscstep s = .next (drawSample Config.machine w s) := by
  obtain ⟨w', hw', ht⟩ := runOscstep_of_legal (c := Config.machine) legal
  obtain rfl := Option.some.inj (hw.symm.trans hw')
  exact congrArg Host.Outcome.next ht

theorem exists_waveformOf_of_legal {p : Params} (legal : OscstepLegal p) : ∃ w, waveformOf p.wave = some w :=
  Option.ne_none_iff_exists'.mp fun none => not_lt.mpr legal.wave (waveformOf_none.mp none)

/-- The first cause, read off the three conditions of R91. -/
theorem firstCause_oscstepChecks (p : Params) :
    firstCause (oscstepChecks p) =
      if p.srate ≤ 0 then some .sampleRate
      else if p.pw ≤ 0 ∨ 1 ≤ p.pw then some .pulseWidth
      else if 5 < p.wave.toNat then some .waveform else none := by
  simp only [oscstepChecks, firstCause, Bool.or_eq_true, decide_eq_true_eq]

/-! ### One step of the shift register, and its sample (R101, R102) -/

theorem lfsrNext_getLsbD_of_lt (l : BitVec 16) {i : Nat} (h : i < 15) :
    (lfsrNext l).getLsbD i = l.getLsbD (i + 1) := by
  have hi : i < 16 := by omega
  simp [lfsrNext, h, Nat.add_comm 1 i]

theorem lfsrNext_getLsbD_last (l : BitVec 16) :
    (lfsrNext l).getLsbD 15 = (((l.getLsbD 0 ^^ l.getLsbD 2) ^^ l.getLsbD 3) ^^ l.getLsbD 5) := by
  simp [lfsrNext, lfsrBit]

theorem noiseMap_of_toNat {l : BitVec 16} {n : Nat} (h : l.toNat = n) : noiseMap l = (n : Num) / 32768 - 1 := by
  rw [noiseMap, h]

/-- Linear over GF(2), where addition is exclusive or. -/
def XorLinear (f : BitVec 16 → BitVec 16) : Prop := ∀ l m, f (l ^^^ m) = f l ^^^ f m

theorem XorLinear.map_zero {f : BitVec 16 → BitVec 16} (hf : XorLinear f) : f 0 = 0 := by
  have h := hf 0 0
  rwa [BitVec.xor_self, BitVec.xor_self] at h

theorem lfsrNext_xorLinear : XorLinear lfsrNext := by
  refine fun l m => BitVec.eq_of_getLsbD_eq fun i hi => ?_
  rcases Nat.lt_or_eq_of_le (Nat.le_of_lt_succ hi) with shifted | rfl
  · simp only [lfsrNext_getLsbD_of_lt _ shifted, BitVec.getLsbD_xor]
  · simp only [lfsrNext_getLsbD_last, BitVec.getLsbD_xor, Bool.xor_assoc, Bool.xor_left_comm]

/-! ### Matrices over GF(2) -/

/-- The product of a matrix over GF(2), given by its columns, and a vector: the sum of the columns at whose places `l`
has a bit set. -/
def mulColumns : List (BitVec 16) → BitVec 16 → BitVec 16
  | [], _ => 0
  | c :: cols, l => (if l.getLsbD 0 then c else 0) ^^^ mulColumns cols (l >>> 1)

theorem mulColumns_xorLinear (cols : List (BitVec 16)) : XorLinear (mulColumns cols) := by
  induction cols with
  | nil => exact fun _ _ => BitVec.xor_self.symm
  | cons c cols ih =>
    intro l m
    have first : (if (l ^^^ m).getLsbD 0 then c else 0) =
        (if l.getLsbD 0 then c else 0) ^^^ (if m.getLsbD 0 then c else 0) := by
      rw [BitVec.getLsbD_xor]
      cases l.getLsbD 0 <;> cases m.getLsbD 0 <;> simp
    have rest : mulColumns cols ((l ^^^ m) >>> 1) = mulColumns cols (l >>> 1) ^^^ mulColumns cols (m >>> 1) := by
      rw [BitVec.ushiftRight_xor_distrib, ih]
    rw [mulColumns, first, rest, mulColumns, mulColumns]
    ac_rfl

/-- A linear map is applied to a sum of columns column by column. -/
theorem mulColumns_map {f : BitVec 16 → BitVec 16} (hf : XorLinear f) (cols : List (BitVec 16)) (l : BitVec 16) :
    mulColumns (cols.map f) l = f (mulColumns cols l) := by
  induction cols generalizing l with
  | nil => exact hf.map_zero.symm
  | cons c cols ih =>
    rw [List.map_cons, mulColumns, mulColumns, hf, ih, apply_ite f, hf.map_zero]

/-- The unit vectors from place `n` on, `k` of them. -/
def unitColumns (n k : Nat) : List (BitVec 16) := (List.range' n k).map (BitVec.twoPow 16)

theorem unitColumns_succ (n k : Nat) :
    unitColumns n (k + 1) = BitVec.twoPow 16 n :: unitColumns (n + 1) k := rfl

/-- They put the low `k` bits of a vector at the places from `n` on. -/
theorem mulColumns_unitColumns_getLsbD (n k : Nat) (l : BitVec 16) {i : Nat} (hi : i < 16) :
    (mulColumns (unitColumns n k) l).getLsbD i = (decide (n ≤ i ∧ i < n + k) && l.getLsbD (i - n)) := by
  induction k generalizing n l with
  | zero => simp [unitColumns, mulColumns]
  | succ k ih =>
    have head : (if l.getLsbD 0 then BitVec.twoPow 16 n else 0).getLsbD i = (decide (n = i) && l.getLsbD 0) := by
      cases l.getLsbD 0 <;> simp [hi, eq_comm]
    rw [unitColumns_succ, mulColumns, BitVec.getLsbD_xor, head, ih, BitVec.getLsbD_ushiftRight]
    rcases lt_trichotomy i n with below | rfl | above
    · simp [below.not_ge, below.ne', (Nat.lt_succ_of_lt below).not_ge]
    · simp
    · have place : 1 + (i - (n + 1)) = i - n := by omega
      have range : (n + 1 ≤ i ∧ i < n + 1 + k) ↔ (n ≤ i ∧ i < n + (k + 1)) := by omega
      simp only [place, range, above.ne, decide_false, Bool.false_and, Bool.false_xor]

theorem mulColumns_unitColumns (l : BitVec 16) : mulColumns (unitColumns 0 16) l = l :=
  BitVec.eq_of_getLsbD_eq fun i hi => by
    rw [mulColumns_unitColumns_getLsbD 0 16 l hi]
    simp [hi]

/-- The matrix of a linear map has the images of the unit vectors as its columns. -/
theorem mulColumns_of_xorLinear {f : BitVec 16 → BitVec 16} (hf : XorLinear f) :
    mulColumns ((unitColumns 0 16).map f) = f :=
  funext fun l => by rw [mulColumns_map hf, mulColumns_unitColumns]

/-- The square of a matrix. -/
def squareColumns (cols : List (BitVec 16)) : List (BitVec 16) := cols.map (mulColumns cols)

theorem mulColumns_squareColumns (cols : List (BitVec 16)) :
    mulColumns (squareColumns cols) = (mulColumns cols)^[2] :=
  funext fun l => mulColumns_map (mulColumns_xorLinear cols) cols l

/-- A power of a matrix times a vector, by the binary digits of the exponent, the lowest first. -/
def mulPower (cols : List (BitVec 16)) : List Nat → BitVec 16 → BitVec 16
  | [], l => l
  | d :: digits, l => mulPower (squareColumns cols) digits ((mulColumns cols)^[d] l)

theorem mulPower_eq (cols : List (BitVec 16)) (digits : List Nat) (l : BitVec 16) :
    mulPower cols digits l = (mulColumns cols)^[Nat.ofDigits 2 digits] l := by
  induction digits generalizing cols l with
  | nil => rfl
  | cons d digits ih =>
    rw [mulPower, ih, mulColumns_squareColumns, ← Function.iterate_mul, ← Function.iterate_add_apply,
      Nat.ofDigits_cons, add_comm]

/-! ### The period of the shift register (R101) -/

theorem lfsrNext_iterate (n : Nat) (l : BitVec 16) :
    lfsrNext^[n] l = mulPower ((unitColumns 0 16).map lfsrNext) (Nat.digits 2 n) l := by
  rw [mulPower_eq, mulColumns_of_xorLinear lfsrNext_xorLinear, Nat.ofDigits_digits]

/-- A period no prime can be divided out of is the least one. -/
theorem minimalPeriod_eq_of_div_prime {α : Type} {f : α → α} {x : α} {n : Nat}
    (period : Function.IsPeriodicPt f n x)
    (least : ∀ p, p.Prime → p ∣ n → ¬Function.IsPeriodicPt f (n / p) x) : Function.minimalPeriod f x = n := by
  obtain ⟨a, ha⟩ := period.minimalPeriod_dvd
  by_contra hne
  obtain ⟨p, hp, b, rfl⟩ := Nat.exists_prime_and_dvd (n := a) fun h1 => hne (by rw [ha, h1, mul_one])
  have hdiv : n / p = Function.minimalPeriod f x * b := by
    rw [ha, mul_left_comm, Nat.mul_div_cancel_left _ hp.pos]
  refine least p hp ⟨Function.minimalPeriod f x * b, by rw [ha, mul_left_comm]⟩ ?_
  rw [hdiv]
  exact (Function.isPeriodicPt_minimalPeriod f x).mul_const b

theorem prime_dvd_65535 {p : Nat} (hp : p.Prime) (h : p ∣ 65535) : p = 3 ∨ p = 5 ∨ p = 17 ∨ p = 257 := by
  have factors : (65535 : Nat).primeFactorsList = [3, 5, 17, 257] := by simp [Nat.primeFactorsList_ofNat]
  simpa [factors] using (Nat.mem_primeFactorsList (by norm_num)).mpr ⟨hp, h⟩

theorem lfsrNext_minimalPeriod_one : Function.minimalPeriod lfsrNext 1 = 65535 := by
  refine minimalPeriod_eq_of_div_prime ?_ fun p hp hdvd => ?_
  · rw [Function.IsPeriodicPt, Function.IsFixedPt, lfsrNext_iterate]
    decide +kernel
  · rw [Function.IsPeriodicPt, Function.IsFixedPt, lfsrNext_iterate]
    rcases prime_dvd_65535 hp hdvd with rfl | rfl | rfl | rfl <;> decide +kernel

theorem lfsrNext_iterate_ne_zero {l : BitVec 16} (h : l ≠ 0) (n : Nat) : lfsrNext^[n] l ≠ 0 := by
  induction n with
  | zero => exact h
  | succ n ih =>
    rw [Function.iterate_succ_apply']
    exact lfsrNext_ne_zero ih

/-- A value of full period reaches every non-zero value: it reaches 65535 of them, and there are no more. -/
theorem exists_lfsrNext_iterate_eq {l m : BitVec 16} (period : Function.minimalPeriod lfsrNext l = 65535)
    (hl : l ≠ 0) (hm : m ≠ 0) : ∃ k < 65535, lfsrNext^[k] l = m := by
  let reached := (Finset.range 65535).image (lfsrNext^[·] l)
  have inj : Set.InjOn (lfsrNext^[·] l) (Finset.range 65535 : Set Nat) := by
    rw [Finset.coe_range, ← period]
    exact Function.iterate_injOn_Iio_minimalPeriod
  have nonzero : reached ⊆ Finset.univ.erase 0 := by
    intro x hx
    obtain ⟨k, -, rfl⟩ := Finset.mem_image.mp hx
    exact Finset.mem_erase.mpr ⟨lfsrNext_iterate_ne_zero hl k, Finset.mem_univ _⟩
  have count : (Finset.univ.erase (0 : BitVec 16)).card ≤ reached.card := by
    rw [Finset.card_image_of_injOn inj, Finset.card_range, Finset.card_erase_of_mem (Finset.mem_univ _),
      Finset.card_univ, ← FinEnum.card_eq_fintypeCard, FinEnum.card_bitVec]
    norm_num
  have hmem : m ∈ reached := by
    rw [Finset.eq_of_subset_of_card_le nonzero count]
    exact Finset.mem_erase.mpr ⟨hm, Finset.mem_univ _⟩
  obtain ⟨k, hk, he⟩ := Finset.mem_image.mp hmem
  exact ⟨k, Finset.mem_range.mp hk, he⟩

/-- Every non-zero value is on the cycle of 1, whose period it shares. -/
theorem lfsrNext_minimalPeriod {l : BitVec 16} (h : l ≠ 0) : Function.minimalPeriod lfsrNext l = 65535 := by
  obtain ⟨k, -, rfl⟩ := exists_lfsrNext_iterate_eq lfsrNext_minimalPeriod_one (by decide) h
  have periodic : 1 ∈ Function.periodicPts lfsrNext :=
    Function.minimalPeriod_pos_iff_mem_periodicPts.mp (by rw [lfsrNext_minimalPeriod_one]; norm_num)
  rw [Function.minimalPeriod_apply_iterate periodic, lfsrNext_minimalPeriod_one]

end Sys2Proof.Machine

open Sys2Proof Sys2Proof.Machine

/-- Settles O11: the generator of each code, and the advance with a draw and without one. -/
theorem oscstepCompletes : Obligations.OscstepCompletes := by
  intro s legal p q
  obtain ⟨w, hw⟩ := exists_waveformOf_of_legal legal
  have code {c : Word} {v : Waveform} (hc : s.params.wave = c) (hv : waveformOf c = some v) : w = v :=
    Option.some.inj (hw.symm.trans (hc ▸ hv))
  have noise : s.params.wave = 5 ↔ w = .noise := by
    rw [← waveformOf_eq_noise_iff, hw, Option.some.injEq]
  have hq : phaseAdvance s.params.srate s.params.oscf s.osc.phase = q := phaseAdvance_eq _ _ _
  refine ⟨_, exec_oscstep_of_legal legal hw, fun h => ?_, fun h => ?_, fun h => ?_, fun h => ?_, fun h => ?_,
    fun h => ?_, ?phase, ?draw, ?keep, rfl⟩
  case phase => exact (oscAdvance_phase _ _ _ _).trans (congrArg fracNum hq)
  case draw =>
    rintro ⟨h, wrap⟩
    obtain rfl := noise.mp h
    rw [drawSample, oscAdvance_of_wrap (hq.symm ▸ wrap)]
    exact ⟨rfl, rfl⟩
  case keep =>
    intro keep
    rw [noise, ← hq] at keep
    rw [drawSample, oscAdvance_of_not_draw keep]
    exact ⟨rfl, rfl⟩
  all_goals
    obtain rfl := code h rfl
    rfl

/-- Settles O35: no check of `OSCSTEP` reads the frequency, and the advance reads its absolute value. -/
theorem negativeFrequencyIsItsAbsoluteValue : Obligations.NegativeFrequencyIsItsAbsoluteValue := by
  intro s f g
  have checks := oscstepChecks_withOscf s
  have sameAdvance (w srate r) : oscAdvance w srate f r = oscAdvance w srate |f| r :=
    oscAdvance_congr_abs (abs_abs f).symm w srate r
  cases h : firstCause (oscstepChecks s.params) with
  | some e =>
    have raised (x) : exec .oscstep (s.withOscf x) = .next { s.withOscf x with status := errorStatus e } :=
      exec_oscstep_of_firstCause (checks x ▸ h)
    exact ⟨_, _, raised f, raised g, rfl, fun _ => ⟨rfl, rfl⟩, sameAdvance⟩
  | none =>
    obtain ⟨w, hw⟩ := exists_waveformOf_of_legal (oscstepChecks_none.mp h)
    have drawn (x) : exec .oscstep (s.withOscf x) = .next (drawSample Config.machine w (s.withOscf x)) :=
      exec_oscstep_of_legal (oscstepChecks_none.mp (checks x ▸ h)) hw
    exact ⟨_, _, drawn f, drawn g, rfl, fun same => ⟨rfl, oscAdvance_congr_abs same w _ _⟩, sameAdvance⟩

/-- Settles O36: the advance leaves the render state, so a second call reads what the first one read. -/
theorem zeroFrequencyHoldsTheOutput : Obligations.ZeroFrequencyHoldsTheOutput := by
  intro s legal h0 h1 hf
  have stays := oscAdvance_zero h0 h1
  obtain ⟨w, hw⟩ := exists_waveformOf_of_legal legal
  have first : drawSample Config.machine w s =
      { s with status := 0, oscout := oscOutput Config.machine w s.params.pw s.osc } := by
    rw [drawSample, hf, stays]
  have second : drawSample Config.machine w (drawSample Config.machine w s) = drawSample Config.machine w s := by
    rw [first, drawSample, hf, stays]
  refine ⟨_, exec_oscstep_of_legal legal hw, by rw [first], ?_, stays⟩
  exact (exec_oscstep_of_legal (s := drawSample Config.machine w s) legal hw).trans
    (congrArg Host.Outcome.next second)

/-- Settles O38: every bit of a step by where it comes from; the period of a non-zero value, by that of 1; the
values its cycle reaches, by counting them. -/
theorem shiftRegisterHasFullPeriod : Obligations.ShiftRegisterHasFullPeriod := by
  refine ⟨lfsrNext_xorLinear.map_zero, fun l => ⟨fun i => lfsrNext_getLsbD_of_lt l, lfsrNext_getLsbD_last l,
    fun hl => ?_⟩⟩
  have period := lfsrNext_minimalPeriod hl
  refine ⟨?_, fun k hpos hk => ?_, fun m hm => ?_⟩
  · rw [← period]
    exact Function.iterate_minimalPeriod
  · exact Function.not_isPeriodicPt_of_pos_of_lt_minimalPeriod hpos.ne' (period ▸ hk)
  · obtain ⟨k, hk, he⟩ := exists_lfsrNext_iterate_eq period hl hm
    refine ⟨k, ⟨hk, he⟩, fun k' ⟨hk', he'⟩ => ?_⟩
    exact (Function.iterate_eq_iterate_iff_of_lt_minimalPeriod (period ▸ hk') (period ▸ hk)).mp (he'.trans he.symm)

/-- Settles O10: the fresh state does not depend on the state before, and the one word is the encoding of `OSCINIT`. -/
theorem oscinitCompletes : Obligations.OscinitCompletes := by
  refine ⟨fun s => ⟨_, exec_oscinit s, rfl, exec_oscinit _⟩, fun w hop => ⟨?_, fun hne s => ?_⟩⟩
  · have word : encode .oscinit = 1 := by decide
    rw [decode_eq_ok_iff, word, eq_comm]
    exact and_iff_left rfl
  · have value : w.toNat ≠ 1 := fun h => hne (BitVec.eq_of_toNat_eq h)
    have used : w.toNat / 2 ^ 8 ≠ 0 := by omega
    exact issueCommand_of_holds (k := .unusedField) ((Illegal.holds_unusedField w).mpr (.inl ⟨by omega, used⟩)) s

/-- Settles O17, by the first cause in each case. -/
theorem oscstepErrorsInOrder : Obligations.OscstepErrorsInOrder := by
  intro s p e1 e3 e5
  have first := firstCause_oscstepChecks p
  refine ⟨fun h1 => ?_, fun h1 h3 => ?_, fun h1 h3 h5 => ?_⟩
  · rw [if_pos h1] at first
    exact exec_oscstep_of_firstCause first
  · rw [if_neg h1, if_pos h3] at first
    exact exec_oscstep_of_firstCause first
  · rw [if_neg h1, if_neg h3, if_pos h5] at first
    exact exec_oscstep_of_firstCause first

/-- Settles O37: the register has 16 bits, so its value is below twice the half scale. -/
theorem noiseMapOfTheRegister : Obligations.NoiseMapOfTheRegister := by
  refine ⟨fun l => ⟨rfl, noiseMap_mem l⟩, ?_, ?_, ?_⟩
  · exact (noiseMap_of_toNat (n := 0) rfl).trans (by norm_num)
  · exact (noiseMap_of_toNat (n := 32768) rfl).trans (by norm_num)
  · exact (noiseMap_of_toNat (n := 65535) rfl).trans (by norm_num)

end

section
/-! PROOFS. Envelope (spec/41_envelope.md): one equation for each phase of the envelope, and from them its bounds, its
monotonicity and its values where phases meet; what `ENVEVAL` answers, by the first cause or by the envelope. -/

namespace Sys2Proof.Machine

/-! ### Attack, decay, sustain (R112) -/

theorem ads_of_attack {p : Params} {t : Num} (attack : t < p.atk) : ads p t = t / p.atk := if_pos attack

theorem ads_of_decay {p : Params} {t : Num} (begun : p.atk ≤ t) (decay : t < p.atk + p.dcy) :
    ads p t = 1 - (1 - p.sus) * (t - p.atk) / p.dcy :=
  (if_neg begun.not_gt).trans (if_pos decay)

theorem ads_of_sustain {p : Params} (h : EnvLegal p) {t : Num} (sustain : p.atk + p.dcy ≤ t) : ads p t = p.sus :=
  (if_neg ((le_add_of_nonneg_right h.dcy).trans sustain).not_gt).trans (if_neg sustain.not_gt)

theorem ads_zero {p : Params} (h : 0 < p.atk) : ads p 0 = 0 := by
  rw [ads_of_attack h, zero_div]

/-- The decay starts at the peak. -/
theorem ads_atk {p : Params} (h : 0 < p.dcy) : ads p p.atk = 1 := by
  rw [ads_of_decay le_rfl (lt_add_of_pos_right _ h), sub_self, mul_zero, zero_div, sub_zero]

/-- Without a decay the sustain starts where the attack ends (R114). -/
theorem ads_atk_of_dcy_eq_zero {p : Params} (h : EnvLegal p) (hd : p.dcy = 0) : ads p p.atk = p.sus :=
  ads_of_sustain h (by rw [hd, add_zero])

theorem ads_le_of_attack {p : Params} (h : EnvLegal p) {t u : Num} (later : t ≤ u) (attack : u < p.atk) :
    ads p t ≤ ads p u := by
  rw [ads_of_attack attack, ads_of_attack (later.trans_lt attack)]
  exact div_le_div_of_nonneg_right later h.atk

theorem ads_ge_of_decay {p : Params} (h : EnvLegal p) {t u : Num} (later : t ≤ u) (begun : p.atk ≤ t)
    (decay : u < p.atk + p.dcy) : ads p u ≤ ads p t := by
  rw [ads_of_decay begun (later.trans_lt decay), ads_of_decay (begun.trans later) decay]
  have slope : 0 ≤ 1 - p.sus := sub_nonneg.mpr h.sus.2
  have fallen : (1 - p.sus) * (t - p.atk) ≤ (1 - p.sus) * (u - p.atk) :=
    mul_le_mul_of_nonneg_left (sub_le_sub_right later _) slope
  exact sub_le_sub_left (div_le_div_of_nonneg_right fallen h.dcy) 1

/-! ### The release (R113) -/

theorem env_of_noffEn_eq_false {p : Params} (off : p.noffEn = false) (t : Num) : env p t = ads p t :=
  if_neg fun released => Bool.false_ne_true (off.symm.trans released.1)

theorem env_of_lt_noff {p : Params} {t : Num} (before : t < p.noff) : env p t = ads p t :=
  if_neg fun released => before.not_ge released.2

theorem env_of_release {p : Params} {t : Num} (enabled : p.noffEn = true) (released : p.noff ≤ t)
    (release : t < p.noff + p.rel) : env p t = ads p p.noff * (1 - (t - p.noff) / p.rel) :=
  (if_pos ⟨enabled, released⟩).trans (if_neg (sub_lt_iff_lt_add'.mpr release).not_ge)

/-- Past the release window the envelope is exactly 0 (R117). -/
theorem env_of_ended {p : Params} (h : EnvLegal p) {t : Num} (enabled : p.noffEn = true)
    (ended : p.noff + p.rel ≤ t) : env p t = 0 :=
  (if_pos ⟨enabled, (le_add_of_nonneg_right h.rel).trans ended⟩).trans (if_pos (le_sub_iff_add_le'.mpr ended))

/-- The release starts at the level the note-off finds (R115, R116). -/
theorem env_noff {p : Params} (enabled : p.noffEn = true) (hr : 0 < p.rel) : env p p.noff = ads p p.noff := by
  rw [env_of_release enabled le_rfl (lt_add_of_pos_right _ hr), sub_self, zero_div, sub_zero, mul_one]

/-- A release from level 0 stays there. -/
theorem env_eq_zero_of_ads_noff {p : Params} (h : EnvLegal p) {t : Num} (enabled : p.noffEn = true)
    (released : p.noff ≤ t) (level : ads p p.noff = 0) : env p t = 0 := by
  rcases lt_or_ge t (p.noff + p.rel) with release | ended
  · rw [env_of_release enabled released release, level, zero_mul]
  · exact env_of_ended h enabled ended

/-- From the note-off on the envelope does not rise: it falls within the window, and is 0, its least value, after. -/
theorem env_ge_of_released {p : Params} (h : EnvLegal p) {t u : Num} (ht : 0 ≤ t) (later : t ≤ u)
    (enabled : p.noffEn = true) (released : p.noff ≤ t) : env p u ≤ env p t := by
  rcases lt_or_ge u (p.noff + p.rel) with release | ended
  · rw [env_of_release enabled released (later.trans_lt release),
      env_of_release enabled (released.trans later) release]
    have elapsed : (t - p.noff) / p.rel ≤ (u - p.noff) / p.rel :=
      div_le_div_of_nonneg_right (sub_le_sub_right later _) h.rel
    exact mul_le_mul_of_nonneg_left (sub_le_sub_left elapsed 1) (ads_mem h (h.noff enabled)).1
  · rw [env_of_ended h enabled ended]
    exact (env_mem h ht).1

/-! ### `ENVEVAL` (R110, R111) -/

theorem exec_enveval_of_firstCause {s : State} {e : Cause} (h : firstCause (envevalChecks s.params) = some e) :
    exec .enveval s = .next { s with status := errorStatus e } := by
  rcases execEnveval_cases s with ⟨e', he', raised⟩ | ⟨unraised, -⟩
  · obtain rfl := Option.some.inj (h.symm.trans he')
    exact raised
  · cases h.symm.trans unraised

/-- The first cause of the envelope check, read off the conditions of R111. -/
theorem firstCause_envChecks (p : Params) :
    firstCause (envChecks p) =
      if p.atk < 0 ∨ p.dcy < 0 ∨ p.rel < 0 ∨ p.sus < 0 ∨ 1 < p.sus then some .envelope
      else if p.noffEn = true ∧ p.noff < 0 then some .noteOff else none := by
  simp only [envChecks, firstCause, Bool.or_eq_true, Bool.and_eq_true, decide_eq_true_eq, or_assoc]

/-- `ENVEVAL` checks its time once the envelope check has passed (R110). -/
theorem firstCause_envevalChecks (p : Params) :
    firstCause (envevalChecks p) =
      (firstCause (envChecks p)).or (if p.envt < 0 then some .envTime else none) := by
  simp only [envevalChecks, firstCause_append, firstCause, decide_eq_true_eq]

end Sys2Proof.Machine

open Sys2Proof Sys2Proof.Machine

/-- Settles O12: a legal `ENVEVAL` passes its checks, and what it then writes to `ENVOUT` is R112 and R113. -/
theorem envevalCompletes : Obligations.EnvevalCompletes :=
  fun _ legal => execEnveval_of_legal legal

/-- Settles O39: the bounds of the envelope, and its value past the release. -/
theorem envelopeStaysInTheUnitInterval : Obligations.EnvelopeStaysInTheUnitInterval := by
  intro p h t ht
  obtain ⟨lower, upper⟩ := env_mem h ht
  exact ⟨lower, upper, env_of_ended h⟩

/-- Settles O40: each phase by its own equation. -/
theorem envelopeIsMonotoneInEachPhase : Obligations.EnvelopeIsMonotoneInEachPhase := by
  refine fun p h t u ht later => ⟨ads_le_of_attack h later, ads_ge_of_decay h later, fun sustain => ?_,
    env_ge_of_released h ht later, env_of_ended h, fun off => env_of_noffEn_eq_false off t, fun _ => env_of_lt_noff⟩
  exact ⟨ads_of_sustain h sustain, ads_of_sustain h (sustain.trans later)⟩

/-- Settles O41: the end of a phase is the first time of the next one, and a phase of zero length is passed over. -/
theorem envelopeAtItsBoundaries : Obligations.EnvelopeAtItsBoundaries := by
  refine fun p h => ⟨fun ha hd => ?ends, fun ha => ?noAttack, ads_atk_of_dcy_eq_zero h,
    fun enabled hr t released => ?noRelease, fun enabled hr => ?release, fun enabled hn ha t ht => ?silent⟩
  case ends => exact ⟨ads_zero ha, ads_atk hd, ads_of_sustain h le_rfl⟩
  case noAttack =>
    split
    · next hd => exact ha ▸ ads_atk_of_dcy_eq_zero h hd
    · next hd => exact ha ▸ ads_atk (h.dcy.lt_of_ne' hd)
  case noRelease => exact env_of_ended h enabled (by rwa [hr, add_zero])
  case release => exact ⟨env_noff enabled hr, env_of_ended h enabled le_rfl⟩
  case silent => exact env_eq_zero_of_ads_noff h enabled (hn.le.trans ht) (hn ▸ ads_zero ha)

/-- Settles O18, by the first cause in each case. -/
theorem envevalErrorsInOrder : Obligations.EnvevalErrorsInOrder := by
  intro s p e7 e8 e12
  have check := firstCause_envChecks p
  have first := firstCause_envevalChecks p
  refine ⟨fun h7 => ?_, fun h7 h8 => ?_, fun h7 h8 h12 => ?_⟩
  · rw [check.trans (if_pos h7)] at first
    exact exec_enveval_of_firstCause first
  · rw [check.trans ((if_neg h7).trans (if_pos h8))] at first
    exact exec_enveval_of_firstCause first
  · rw [check.trans ((if_neg h7).trans (if_neg h8)), if_pos h12] at first
    exact exec_enveval_of_firstCause first

end

section
/-! PROOFS. Voice (spec/42_voice.md): what `RENDER` gives is a function of the parameters alone (`voiceOutcome`), which
it raises or stores (`runRender_eq`); the render state before each sample has a closed form (`voiceOsc_eq`). -/

namespace Sys2Proof.Machine

/-! ### The sample loop, sample by sample (R120, R121, R124) -/

/-- The render state before sample `i`: the fresh one, advanced once for each sample before it (R121). -/
def voiceOsc (c : Config) (w : Waveform) (p : Params) (i : Nat) : RenderState :=
  forRange i (fun j => oscAdvance w p.srate (voiceFreq c p (sampleTime p j))) (RenderState.fresh c)

@[simp] theorem voiceOsc_zero (c : Config) (w : Waveform) (p : Params) : voiceOsc c w p 0 = RenderState.fresh c := rfl

theorem voiceOsc_succ (c : Config) (w : Waveform) (p : Params) (i : Nat) :
    voiceOsc c w p (i + 1) = oscAdvance w p.srate (voiceFreq c p (sampleTime p i)) (voiceOsc c w p i) := rfl

theorem voiceOsc_inRange (c : Config) (w : Waveform) (p : Params) (i : Nat) : (voiceOsc c w p i).InRange :=
  forRange_induction (P := fun _ => RenderState.InRange) (RenderState.fresh_inRange c) fun _ _ _ h =>
    oscAdvance_inRange _ _ _ h

/-- Sample `i` before the quantiser (R125). -/
def voiceSampleValue (c : Config) (w : Waveform) (p : Params) (i : Nat) : Num := voiceValue c w p i (voiceOsc c w p i)

theorem renderLoop_osc (c : Config) (w : Waveform) (s : State) (n : Nat) :
    (renderLoop c w s n).osc = voiceOsc c w s.params n := by
  induction n with
  | zero => rfl
  | succ n ih => exact congrArg (oscAdvance _ _ _) ih

theorem renderLoop_out (c : Config) (w : Waveform) (s : State) (n : Nat) :
    (renderLoop c w s n).stream.out = (List.range n).map fun i => quantise (voiceSampleValue c w s.params i) := by
  induction n with
  | zero => rfl
  | succ n ih =>
    rw [List.range_succ, List.map_append, ← ih, List.map_singleton, voiceSampleValue, ← renderLoop_osc]
    rfl

/-! ### What `RENDER` gives is a function of the parameters (R126) -/

/-- What a `RENDER` that succeeds gives: the render state it leaves, and the buffer it stores. -/
structure Voice where
  osc : RenderState
  out : Buffer

/-- The voice of the generator `w` (R120). -/
def voice (c : Config) (w : Waveform) (p : Params) : Voice where
  osc := voiceOsc c w p (renderLength p).toNat
  out := (List.range (renderLength p).toNat).map fun i => quantise (voiceSampleValue c w p i)

/-- The cause `RENDER` raises, or the voice it stores. -/
def voiceOutcome (c : Config) (p : Params) : Except Cause Voice :=
  match firstCause (renderChecks c p), waveformOf p.wave with
  | some e, _ => .error e
  | none, none => .error .waveform
  | none, some w => .ok (voice c w p)

/-- What `RENDER` makes of the state; a voice never clips, so the counter stays. -/
def storeVoice (d : Field8) (s : State) : Except Cause Voice → State
  | .error e => raise e s
  | .ok v => finish false (bufWrite d.toNat v.out { s with osc := v.osc })

theorem voiceOutcome_of_firstCause {c : Config} {p : Params} {e : Cause}
    (h : firstCause (renderChecks c p) = some e) : voiceOutcome c p = .error e := by
  rw [voiceOutcome, h]

theorem voiceOutcome_of_legal {c : Config} {p : Params} {w : Waveform} (legal : RenderLegal c p)
    (hw : waveformOf p.wave = some w) : voiceOutcome c p = .ok (voice c w p) := by
  rw [voiceOutcome, renderChecks_none.mpr legal, hw]

theorem voiceOutcome_congr {c : Config} {p p' : Params} (checks : renderChecks c p' = renderChecks c p)
    (wave : p'.wave = p.wave) (same : ∀ w, voice c w p' = voice c w p) : voiceOutcome c p' = voiceOutcome c p := by
  simp only [voiceOutcome, checks, wave, same]

/-- `RENDER` reads nothing but the parameters (R126). -/
theorem runRender_eq (c : Config) (d : Field8) (s : State) :
    runRender c d s = storeVoice d s (voiceOutcome c s.params) := by
  rcases runRender_cases c d s with ⟨e, cause, raised⟩ | ⟨w, unraised, hw, stored⟩
  · rw [voiceOutcome_of_firstCause cause]
    exact raised
  · have legal := renderChecks_none.mp unraised
    rw [stored, voiceOutcome_of_legal legal hw, renderLoop_osc, renderLoop_out,
      (renderLoop_voiceAfter legal w _).unclipped]
    rfl

theorem exec_render (d : Field8) (s : State) :
    exec (.render d) s = .next (storeVoice d s (voiceOutcome Config.machine s.params)) :=
  congrArg Host.Outcome.next (runRender_eq Config.machine d s)

/-- A voice changes the render state, its slot and `STATUS`, and nothing else. -/
theorem storeVoice_ok (d : Field8) (s : State) (v : Voice) :
    storeVoice d s (.ok v) =
      { s with status := 0, osc := v.osc, slots := Memory.set s.slots d.toNat v.out } := rfl

theorem slotBuf_storeVoice_ok {s : State} (hs : Memory.wf s.slots = true) (d : Field8) (v : Voice) (k : Nat) :
    slotBuf (storeVoice d s (.ok v)) k = if d.toNat = k then v.out else slotBuf s k :=
  slotBuf_bufWrite d.toNat k v.out { s with osc := v.osc } hs

theorem bufLen_storeVoice_ok {s : State} (hs : Memory.wf s.slots = true) (d : Field8) (v : Voice) :
    bufLen (storeVoice d s (.ok v)) d.toNat = v.out.length := by
  rw [bufLen, slotBuf_storeVoice_ok hs, if_pos rfl]

theorem voice_out_length (c : Config) (w : Waveform) (p : Params) :
    (voice c w p).out.length = (renderLength p).toNat := by
  rw [voice, List.length_map, List.length_range]

theorem bufRead_storeVoice_ok {s : State} (hs : Memory.wf s.slots = true) (d : Field8) (c : Config) (w : Waveform)
    (p : Params) {i : Nat} (hi : i < (renderLength p).toNat) :
    bufRead (storeVoice d s (.ok (voice c w p))) d.toNat i = quantise (voiceSampleValue c w p i) := by
  rw [bufRead, slotBuf_storeVoice_ok hs, if_pos rfl, List.getD_eq_getElem _ _ (by rwa [voice_out_length])]
  simp only [voice, List.getElem_map, List.getElem_range]

theorem exists_waveformOf_of_renderLegal {c : Config} {p : Params} (legal : RenderLegal c p) :
    ∃ w, waveformOf p.wave = some w :=
  Option.ne_none_iff_exists'.mp fun none => not_lt.mpr legal.wave (waveformOf_none.mp none)

/-- No error is reported as success (R172). -/
theorem errField_errorStatus_ne_zero (e : Cause) : errField (errorStatus e) ≠ 0 := by
  cases e with
  | illegal k => cases k <;> decide
  | _ => decide

theorem renderLength_eq (p : Params) : renderLength p = ⌊p.dur * p.srate⌋ := floorNum_eq _

/-- The first cause, read off the conditions of R120. -/
theorem firstCause_renderChecks (c : Config) (p : Params) :
    firstCause (renderChecks c p) =
      if p.srate ≤ 0 then some .sampleRate
      else if p.dur < 0 then some .duration
      else if p.pw ≤ 0 ∨ 1 ≤ p.pw then some .pulseWidth
      else if (c.bufCap : Int) < renderLength p then some .bufferCap
      else if 5 < p.wave.toNat then some .waveform
      else if p.amp < 0 ∨ 1 < p.amp then some .amplitude
      else firstCause (envChecks p) := by
  simp only [renderChecks, List.cons_append, List.nil_append, firstCause, Bool.or_eq_true, decide_eq_true_eq]

/-! ### The frequency, the phase and the noise register in closed form (R100, R121 to R123) -/

/-- The vibrato is a factor, 1 where it is off (R122). -/
theorem voiceFreq_eq (c : Config) (p : Params) (t : Num) :
    voiceFreq c p t = p.freq * c.pow2c p.detune *
      (if p.vrate ≠ 0 ∧ p.vdepth ≠ 0 then c.pow2c (p.vdepth * c.sin (Int.fract (p.vrate * t))) else 1) := by
  rw [mul_ite, mul_one]
  rfl

/-- The parameters with another value in `FREQ`. -/
def Params.withFreq (p : Params) (f : Num) : Params := { p with freq := f }

theorem voiceFreq_withFreq_neg (c : Config) (p : Params) (t : Num) :
    voiceFreq c (p.withFreq (-p.freq)) t = -voiceFreq c p t := by
  rw [voiceFreq_eq, voiceFreq_eq, ← neg_mul, ← neg_mul]
  rfl

theorem voiceOsc_withFreq_neg (c : Config) (w : Waveform) (p : Params) (i : Nat) :
    voiceOsc c w (p.withFreq (-p.freq)) i = voiceOsc c w p i := by
  induction i with
  | zero => rfl
  | succ i ih =>
    rw [voiceOsc_succ, voiceOsc_succ, ih, voiceFreq_withFreq_neg]
    exact oscAdvance_congr_abs (abs_neg _) _ _ _

theorem voice_withFreq_neg (c : Config) (w : Waveform) (p : Params) :
    voice c w (p.withFreq (-p.freq)) = voice c w p := by
  simp only [voice, voiceSampleValue, voiceOsc_withFreq_neg]
  rfl

/-- The sum of the advances before sample `i` (R99), not wrapped. -/
def phaseTotal (c : Config) (p : Params) (i : Nat) : Num :=
  ∑ j ∈ Finset.range i, |voiceFreq c p (sampleTime p j)| / p.srate

@[simp] theorem phaseTotal_zero (c : Config) (p : Params) : phaseTotal c p 0 = 0 := Finset.sum_range_zero _

theorem phaseTotal_succ (c : Config) (p : Params) (i : Nat) :
    phaseTotal c p (i + 1) = phaseTotal c p i + |voiceFreq c p (sampleTime p i)| / p.srate :=
  Finset.sum_range_succ _ i

/-- The draws of the noise register before sample `i`: one for each advance that crossed an integer (R100). -/
def voiceDraws (c : Config) (w : Waveform) (p : Params) (i : Nat) : Nat :=
  if w = .noise then ((Finset.range i).filter fun j => ⌊phaseTotal c p j⌋ < ⌊phaseTotal c p (j + 1)⌋).card else 0

@[simp] theorem voiceDraws_zero (c : Config) (w : Waveform) (p : Params) : voiceDraws c w p 0 = 0 := by
  rw [voiceDraws, Finset.range_zero, Finset.filter_empty, Finset.card_empty, ite_self]

theorem voiceDraws_succ (c : Config) (w : Waveform) (p : Params) (i : Nat) :
    voiceDraws c w p (i + 1) =
      voiceDraws c w p i + if w = .noise ∧ ⌊phaseTotal c p i⌋ < ⌊phaseTotal c p (i + 1)⌋ then 1 else 0 := by
  by_cases noise : w = .noise
  · simp only [voiceDraws, noise, if_true, true_and, Finset.card_filter, Finset.sum_range_succ]
  · simp only [voiceDraws, noise, if_false, false_and, add_zero]

/-- A sum wraps alike whether or not its first term was wrapped before. -/
theorem fract_fract_add (x a : Num) : Int.fract (Int.fract x + a) = Int.fract (x + a) := by
  rw [← Int.self_sub_floor x, sub_add_eq_add_sub, Int.fract_sub_intCast]

/-- An advance wraps the phase exactly when it takes the sum across an integer. -/
theorem one_le_fract_add_iff (x a : Num) : 1 ≤ Int.fract x + a ↔ ⌊x⌋ < ⌊x + a⌋ := by
  rw [← Int.add_one_le_iff, Int.le_floor, ← Int.self_sub_floor x, Int.cast_add, Int.cast_one]
  constructor <;> intro h <;> linarith

/-- The render state after `n` draws of the noise register, at a phase (R100 to R102). -/
def RenderState.drawn (c : Config) (phase : Num) (n : Nat) : RenderState where
  phase := phase
  lfsr := lfsrNext^[n] c.lfsrSeed
  nhold := if n = 0 then c.noiseInit else noiseMap (lfsrNext^[n] c.lfsrSeed)

/-- R121: the phase is the wrapped sum of the advances, and the noise register has been drawn at every wrap. -/
theorem voiceOsc_eq (c : Config) (w : Waveform) (p : Params) (i : Nat) :
    voiceOsc c w p i = RenderState.drawn c (Int.fract (phaseTotal c p i)) (voiceDraws c w p i) := by
  induction i with
  | zero => simp [RenderState.drawn, RenderState.fresh]
  | succ i ih =>
    have advance : phaseAdvance p.srate (voiceFreq c p (sampleTime p i)) (voiceOsc c w p i).phase =
        Int.fract (phaseTotal c p i) + |voiceFreq c p (sampleTime p i)| / p.srate := by
      rw [phaseAdvance_eq, ih, RenderState.drawn]
    have phase : fracNum (phaseAdvance p.srate (voiceFreq c p (sampleTime p i)) (voiceOsc c w p i).phase) =
        Int.fract (phaseTotal c p (i + 1)) := by
      rw [advance, fracNum_eq, fract_fract_add, phaseTotal_succ]
    have wraps : 1 ≤ phaseAdvance p.srate (voiceFreq c p (sampleTime p i)) (voiceOsc c w p i).phase ↔
        ⌊phaseTotal c p i⌋ < ⌊phaseTotal c p (i + 1)⌋ := by
      rw [advance, one_le_fract_add_iff, phaseTotal_succ]
    rw [voiceOsc_succ, voiceDraws_succ]
    by_cases draw : w = .noise ∧ ⌊phaseTotal c p i⌋ < ⌊phaseTotal c p (i + 1)⌋
    · obtain ⟨rfl, crossed⟩ := draw
      rw [oscAdvance_of_wrap (wraps.mpr crossed), phase, ih, if_pos ⟨rfl, crossed⟩]
      simp only [RenderState.drawn, Function.iterate_succ_apply', Nat.succ_ne_zero, if_false]
    · rw [oscAdvance_of_not_draw (by rwa [wraps]), phase, ih, if_neg draw]
      rfl

/-- The code of a generator in `WAVE` (R75). -/
def waveCode : Waveform → Word
  | .sine => 0 | .square => 1 | .pulse => 2 | .sawtooth => 3 | .triangle => 4 | .noise => 5

theorem eq_waveCode_of_waveformOf {code : Word} {w : Waveform} (h : waveformOf code = some w) : code = waveCode w := by
  unfold waveformOf at h
  split at h
  case h_7 => cases h
  all_goals
    next hcode =>
      cases h
      exact BitVec.eq_of_toNat_eq hcode

/-- The generators (R93 to R98), picked by the code in `WAVE`. -/
theorem gen_of_waveformOf {code : Word} {w : Waveform} (h : waveformOf code = some w) (c : Config)
    (pw nhold x : Num) :
    gen c w pw nhold x =
      if code = 0 then c.sin x
      else if code = 1 then (if x < 1 / 2 then 1 else -1)
      else if code = 2 then (if x < pw then 1 else -1)
      else if code = 3 then 2 * x - 1
      else if code = 4 then (if x < 1 / 2 then 4 * x - 1 else 3 - 4 * x)
      else nhold := by
  obtain rfl := eq_waveCode_of_waveformOf h
  cases w <;> rfl

/-- R125: no sample of a legal voice is over range. -/
theorem abs_voiceSampleValue_le {c : Config} {p : Params} (legal : RenderLegal c p) (w : Waveform) (i : Nat) :
    |voiceSampleValue c w p i| ≤ 32767 :=
  overRange_false_iff_abs.mp (voiceValue_not_overRange legal w i (voiceOsc_inRange c w p i))

/-! ### The first sample (R127) -/

/-- With a positive attack the envelope starts at 0, whether or not the note is off from the start. -/
theorem env_zero {p : Params} (h : EnvLegal p) (attack : 0 < p.atk) : env p 0 = 0 := by
  by_cases released : p.noffEn = true ∧ p.noff ≤ 0
  · obtain ⟨enabled, hn⟩ := released
    have atStart : p.noff = 0 := le_antisymm hn (h.noff enabled)
    exact env_eq_zero_of_ads_noff h enabled hn (atStart ▸ ads_zero attack)
  · exact (if_neg released).trans (ads_zero attack)

theorem voiceSampleValue_zero {c : Config} {p : Params} (legal : RenderLegal c p) (attack : 0 < p.atk)
    (w : Waveform) : voiceSampleValue c w p 0 = 0 := by
  have start : sampleTime p 0 = 0 := by rw [sampleTime, Nat.cast_zero, zero_div]
  rw [voiceSampleValue, voiceValue, start, env_zero legal.env attack, mul_zero, zero_mul, zero_mul]

end Sys2Proof.Machine

open Sys2Proof Sys2Proof.Machine

/-- Settles O13: the loop sample by sample, with the closed form of the render state before each sample. -/
theorem renderCompletes : Obligations.RenderCompletes := by
  intro s d legal hs c p len time freq total phase draws register held tone value
  obtain ⟨w, hw⟩ := exists_waveformOf_of_renderLegal legal
  have noise : p.wave = 5 ↔ w = .noise := by
    rw [← waveformOf_eq_noise_iff, hw, Option.some.injEq]
  have hfreq : freq = voiceFreq c p := funext fun t => (voiceFreq_eq c p t).symm
  have htotal : total = phaseTotal c p := by
    simp only [total, hfreq]
    rfl
  have hdraws : draws = voiceDraws c w p := by
    simp only [draws, htotal, noise]
    rfl
  have hosc (i : Nat) : voiceOsc c w p i = { phase := phase i, lfsr := register i, nhold := held i } := by
    rw [voiceOsc_eq, ← htotal, ← hdraws]
    rfl
  have hvalue (i : Nat) : value i = voiceSampleValue c w p i := by
    rw [voiceSampleValue, voiceValue, oscOutput, hosc, gen_of_waveformOf hw]
    rfl
  have outcome := exec_render d s
  rw [voiceOutcome_of_legal legal hw] at outcome
  refine ⟨_, outcome, ?frame, ?length, fun i hi => ?sample, fun k hk => readByte_congr ?other⟩
  case frame =>
    have hlen : len = (renderLength p).toNat := congrArg Int.toNat (renderLength_eq p).symm
    rw [← hosc, hlen]
    exact storeVoice_ok d s _
  case length => exact (bufLen_storeVoice_ok hs d _).trans (voice_out_length _ _ _)
  case sample =>
    have bound := abs_voiceSampleValue_le legal w i
    rw [hvalue, bufRead_storeVoice_ok hs d _ _ _ hi, quantise_of_mem (abs_le.mp bound)]
    exact ⟨bound, rfl⟩
  case other => rw [slotBuf_storeVoice_ok hs, if_neg hk.symm]

/-- Settles O19, by the first cause in each case. -/
theorem renderErrorsInOrder : Obligations.RenderErrorsInOrder := by
  intro s d p e1 e2 e3 e4 e5 e6 e7 e8
  have raised (e : Cause) (h : firstCause (renderChecks Config.machine p) = some e) :
      exec (.render d) s = .next { s with status := errorStatus e } := by
    rw [exec_render, voiceOutcome_of_firstCause h]
    rfl
  have first := firstCause_renderChecks Config.machine p
  rw [renderLength_eq] at first
  have check := firstCause_envChecks p
  refine ⟨fun h1 => raised .sampleRate ?_, fun h1 h2 => raised .duration ?_, fun h1 h2 h3 => raised .pulseWidth ?_,
    fun h1 h2 h3 h4 => raised .bufferCap ?_, fun h1 h2 h3 h4 h5 => raised .waveform ?_,
    fun h1 h2 h3 h4 h5 h6 => raised .amplitude ?_, fun h1 h2 h3 h4 h5 h6 h7 => raised .envelope ?_,
    fun h1 h2 h3 h4 h5 h6 h7 h8 => raised .noteOff ?_⟩
  · rw [first, if_pos h1]
  · rw [first, if_neg h1, if_pos h2]
  · rw [first, if_neg h1, if_neg h2, if_pos h3]
  · rw [first, if_neg h1, if_neg h2, if_neg h3, if_pos h4]
  · rw [first, if_neg h1, if_neg h2, if_neg h3, if_neg h4, if_pos h5]
  · rw [first, if_neg h1, if_neg h2, if_neg h3, if_neg h4, if_neg h5, if_pos h6]
  · rw [first, if_neg h1, if_neg h2, if_neg h3, if_neg h4, if_neg h5, if_neg h6]
    exact check.trans (if_pos h7)
  · rw [first, if_neg h1, if_neg h2, if_neg h3, if_neg h4, if_neg h5, if_neg h6]
    exact check.trans ((if_neg h7).trans (if_pos h8))

/-- Settles O42: the outcome of `RENDER` is a function of parameters, and reads none above register 14. -/
theorem renderIsDeterministic : Obligations.RenderIsDeterministic := by
  intro s u t v d e hs hu same ht hv
  have outcome : voiceOutcome Config.machine u.params = voiceOutcome Config.machine s.params := by
    rw [same]
    exact voiceOutcome_congr rfl rfl fun _ => rfl
  obtain rfl := Host.Outcome.next.inj ((exec_render d s).symm.trans ht)
  obtain rfl := Host.Outcome.next.inj ((exec_render e u).symm.trans hv)
  rw [outcome]
  cases voiceOutcome Config.machine s.params with
  | error cause => exact ⟨rfl, fun success => absurd success (errField_errorStatus_ne_zero cause)⟩
  | ok voice =>
    refine ⟨rfl, fun _ => ⟨?_, rfl⟩⟩
    rw [slotBuf_storeVoice_ok hs, slotBuf_storeVoice_ok hu, if_pos rfl, if_pos rfl]

/-- Settles O43: the envelope is 0 at the first sample, and so is the product. -/
theorem renderStartsFromSilence : Obligations.RenderStartsFromSilence := by
  refine ⟨fun c s d legal hs attack nonempty => ?_, fun _ _ => rfl⟩
  obtain ⟨w, hw⟩ := exists_waveformOf_of_renderLegal legal
  rw [runRender_eq, voiceOutcome_of_legal legal hw] at nonempty ⊢
  rw [bufLen_storeVoice_ok hs, voice_out_length] at nonempty
  rw [bufRead_storeVoice_ok hs d _ _ _ (Nat.pos_of_ne_zero nonempty), voiceSampleValue_zero legal attack]
  exact quantise_intCast (n := 0) ⟨by decide, by decide⟩

/-- Settles O44: no check of `RENDER` reads the frequency, and the advance reads its absolute value. -/
theorem renderIgnoresTheSignOfFreq : Obligations.RenderIgnoresTheSignOfFreq := by
  intro s d
  have outcome : voiceOutcome Config.machine (s.params.withFreq (-s.params.freq)) =
      voiceOutcome Config.machine s.params :=
    voiceOutcome_congr rfl rfl fun w => voice_withFreq_neg _ w _
  have negated := exec_render d { s with params := s.params.withFreq (-s.params.freq) }
  rw [outcome] at negated
  refine ⟨_, _, exec_render d s, negated, ?_⟩
  cases voiceOutcome Config.machine s.params <;> exact ⟨rfl, rfl, rfl, rfl⟩

end

section
/-! PROOFS. Mixer (spec/43_mixer.md): the sum over the sources in closed form (`mixValue_eq`), what the sample loop of
`MIX` gives (`mixLoop_out`, `mixLoop_counted`), and the cause it raises first (`firstCause_mixChecks`). -/

namespace Sys2Proof.Machine

/-! ### Samples read from a slot (R58, R132) -/

/-- Past the end of a slot a read gives 0, which is what a short source adds (R132). -/
theorem bufRead_of_le {s : State} {k i : Nat} (h : bufLen s k ≤ i) : bufRead s k i = 0 := List.getD_eq_default _ _ h

theorem ite_bufRead (s : State) (k i : Nat) : (if i < bufLen s k then bufRead s k i else 0) = bufRead s k i := by
  split
  · rfl
  · next past => exact (bufRead_of_le (not_lt.mp past)).symm

theorem bufRead_eq_zero_of_silent {s : State} {k : Nat} (h : ∀ x ∈ slotBuf s k, x = 0) (i : Nat) :
    bufRead s k i = 0 := by
  rcases lt_or_ge i (bufLen s k) with inside | past
  · exact h _ (List.mem_of_getElem? (getElem?_slotBuf inside))
  · exact bufRead_of_le past

theorem map_bufRead_range (s : State) (k : Nat) : (List.range (bufLen s k)).map (bufRead s k) = slotBuf s k := by
  refine List.ext_getElem (by rw [List.length_map, List.length_range, bufLen]) fun i _ inside => ?_
  rw [List.getElem_map, List.getElem_range, bufRead, List.getD_eq_getElem _ _ inside]

/-! ### The mean of the sources times the gain (R130, R132, R133) -/

theorem mixSum_eq (a n : Field8) (s : State) (i : Nat) :
    mixSum a n s i = ∑ k ∈ Finset.range n.toNat, bufRead s (a.toNat + k) i := by
  refine forRange_induction (P := fun m sum => sum = ∑ k ∈ Finset.range m, bufRead s (a.toNat + k) i) rfl
    fun k sum _ ih => ?_
  rw [Finset.sum_range_succ, ← ih, mixSource]
  split
  · rfl
  · next past => rw [bufRead_of_le (not_lt.mp past), add_zero]

theorem mixValue_eq (a n : Field8) (s : State) (i : Nat) :
    mixValue a n s i =
      ((∑ k ∈ Finset.range n.toNat, bufRead s (a.toNat + k) i : Int) : Num) * s.params.mgain / (n.toNat : Num) := by
  rw [mixValue, mixSum_eq]

theorem mixValue_one (a : Field8) (s : State) (i : Nat) :
    mixValue a 1 s i = (bufRead s a.toNat i : Num) * s.params.mgain := by
  have one : (1 : Field8).toNat = 1 := rfl
  rw [mixValue_eq, one, Finset.sum_range_one, add_zero, Nat.cast_one, div_one]

theorem mixValue_of_mgain_eq_zero {s : State} (h : s.params.mgain = 0) (a n : Field8) (i : Nat) :
    mixValue a n s i = 0 := by
  rw [mixValue, h, mul_zero, zero_div]

theorem mixValue_of_silent {a n : Field8} {s : State}
    (h : ∀ k, k < n.toNat → ∀ x ∈ slotBuf s (a.toNat + k), x = 0) (i : Nat) : mixValue a n s i = 0 := by
  have silent : ∑ k ∈ Finset.range n.toNat, bufRead s (a.toNat + k) i = 0 :=
    Finset.sum_eq_zero fun k hk => bufRead_eq_zero_of_silent (h k (Finset.mem_range.mp hk)) i
  rw [mixValue_eq, silent, Int.cast_zero, zero_mul, zero_div]

/-- The sum of `CNT` samples is at most `CNT` times full scale. -/
theorem abs_mixSum_le {s : State} (samples : SlotsHoldSamples s) (a n : Field8) (i : Nat) :
    |mixSum a n s i| ≤ n.toNat * 32767 := by
  rw [mixSum_eq]
  calc |∑ k ∈ Finset.range n.toNat, bufRead s (a.toNat + k) i|
      ≤ ∑ k ∈ Finset.range n.toNat, |bufRead s (a.toNat + k) i| := Finset.abs_sum_le_sum_abs _ _
    _ ≤ ∑ _k ∈ Finset.range n.toNat, 32767 :=
        Finset.sum_le_sum fun k _ => abs_le.mpr (samples.getD (a.toNat + k) i)
    _ = n.toNat * 32767 := by rw [Finset.sum_const, Finset.card_range, nsmul_eq_mul]

/-- R137: the mean of samples is in range, and a gain of at most 1 keeps it there. -/
theorem mixValue_not_overRange {n : Field8} {s : State} (count : n ≠ 0) (samples : SlotsHoldSamples s)
    (gain : |s.params.mgain| ≤ 1) (a : Field8) (i : Nat) : overRange (mixValue a n s i) = false := by
  have positive : (0 : Num) < n.toNat :=
    Nat.cast_pos.mpr (Nat.pos_of_ne_zero fun h => count (BitVec.eq_of_toNat_eq h))
  have sum : |(mixSum a n s i : Num)| ≤ n.toNat * 32767 := by exact_mod_cast abs_mixSum_le samples a n i
  rw [overRange_false_iff_abs, mixValue, abs_div, abs_of_pos positive, div_le_iff₀ positive, abs_mul, mul_comm 32767]
  exact (mul_le_of_le_one_right (abs_nonneg _) gain).trans sum

/-! ### The clipping record of a run of samples (R56) -/

/-- The indices below `n` at which the values `v` are over range. -/
def clippedBelow (v : Nat → Num) (n : Nat) : Finset Nat := (Finset.range n).filter fun i => 32767 < |v i|

theorem card_clippedBelow_succ (v : Nat → Num) (n : Nat) :
    (clippedBelow v (n + 1)).card = (clippedBelow v n).card + if overRange (v n) then 1 else 0 := by
  simp only [clippedBelow, Finset.card_filter, Finset.sum_range_succ, overRange_iff_abs]

theorem Counted.push_clippedBelow {q₀ : Tally} {v : Nat → Num} {n : Nat} {o : Stream}
    (h : Counted q₀ (clippedBelow v n).card o.q) : Counted q₀ (clippedBelow v (n + 1)).card (o.push (v n)).q :=
  card_clippedBelow_succ v n ▸ h.push (v n)

theorem statusWord_unclipped : statusWord 0 false 0 = 0 := rfl

/-- The status of a command that clipped `clips` samples (R39, R177). -/
theorem Counted.statusWord_eq {s : State} {clips : Nat} {q : Tally} (h : Counted (Tally.start s) clips q) :
    statusWord 0 q.clipped 0 = if clips = 0 then 0 else 8 := by
  obtain ⟨clipped, -⟩ := h
  rw [clipped, Tally.start_clipped, Bool.false_or]
  cases clips with
  | zero => rfl
  | succ k => rw [decide_eq_true k.succ_pos, if_neg k.succ_ne_zero]; rfl

/-- A stored result changes its slot, the clipping record and `STATUS`, and nothing else. -/
theorem Counted.storeResult_frame {s : State} {clips : Nat} {q : Tally} (h : Counted (Tally.start s) clips q)
    (d : Field8) (l : Buffer) :
    storeResult d l q s =
      { s with
        status := if clips = 0 then 0 else 8
        clipcnt := q.count
        slots := Memory.set s.slots d.toNat l } := by
  rw [← h.statusWord_eq]
  rfl

/-! ### What the sample loop gives (R130, R131) -/

theorem mixLoop_succ (a n : Field8) (s : State) (len : Nat) :
    mixLoop a n s (len + 1) = (mixLoop a n s len).push (mixValue a n s len) := rfl

theorem mixLoop_out (a n : Field8) (s : State) (len : Nat) :
    (mixLoop a n s len).out = (List.range len).map fun i => quantise (mixValue a n s i) := by
  induction len with
  | zero => rfl
  | succ len ih => rw [mixLoop_succ, Stream.push_out, ih, List.range_succ, List.map_append, List.map_singleton]

theorem mixLoop_counted (a n : Field8) (s : State) (len : Nat) :
    Counted (Tally.start s) (clippedBelow (mixValue a n s) len).card (mixLoop a n s len).q := by
  induction len with
  | zero => exact Counted.zero _
  | succ len ih => exact ih.push_clippedBelow

theorem mixLoop_q_of_unitGain {n : Field8} {s : State} (count : n ≠ 0) (samples : SlotsHoldSamples s)
    (gain : |s.params.mgain| ≤ 1) (a : Field8) (len : Nat) : (mixLoop a n s len).q = Tally.start s :=
  forRange_induction (P := fun _ (o : Stream) => o.q = Tally.start s) rfl fun i _ _ ih =>
    (q16_snd_of_not _ (mixValue_not_overRange count samples gain a i)).trans ih

theorem eq_zero_of_mem_mixLoop_out {a n : Field8} {s : State} (h : ∀ i, mixValue a n s i = 0) (len : Nat) :
    ∀ x ∈ (mixLoop a n s len).out, x = 0 := by
  intro x hx
  rw [mixLoop_out] at hx
  obtain ⟨i, -, rfl⟩ := List.mem_map.mp hx
  rw [h]
  exact quantise_intCast (n := 0) ⟨by decide, by decide⟩

theorem mixLength_one (a : Field8) (s : State) : mixLength a 1 s = bufLen s a.toNat := by
  obtain ⟨k, hk, longest⟩ := (mixLength_spec a 1 s).2 (by decide)
  obtain rfl : k = 0 := Nat.lt_one_iff.mp hk
  exact longest.symm

/-- R136: a lone source at an integer gain of at most 1 is multiplied by it, exactly. -/
theorem mixLoop_one_out {a : Field8} {s : State} (samples : SlotsHoldSamples s) {g : Int} (gain : |g| ≤ 1)
    (hg : s.params.mgain = g) :
    (mixLoop a 1 s (mixLength a 1 s)).out = (slotBuf s a.toNat).map (g * ·) := by
  rw [mixLoop_out, mixLength_one, ← map_bufRead_range, List.map_map]
  refine List.map_congr_left fun i _ => ?_
  have product : IsSample (g * bufRead s a.toNat i) := by
    refine abs_le.mp ?_
    rw [abs_mul]
    exact (mul_le_of_le_one_left (abs_nonneg _) gain).trans (abs_le.mpr (samples.getD a.toNat i))
  rw [mixValue_one, hg, mul_comm, ← Int.cast_mul, quantise_intCast product]
  rfl

/-! ### `MIX` -/

theorem exec_mix_of_legal {a n : Field8} {s : State} (h : MixLegal Config.machine a n s) (d : Field8) :
    exec (.mix d a n) s =
      .next (storeResult d (mixLoop a n s (mixLength a n s)).out (mixLoop a n s (mixLength a n s)).q s) :=
  congrArg Host.Outcome.next (runMix_of_legal h d)

theorem exec_mix_of_firstCause {a n : Field8} {s : State} {e : Cause}
    (h : firstCause (mixChecks Config.machine a n s) = some e) (d : Field8) :
    exec (.mix d a n) s = .next { s with status := errorStatus e } := by
  rcases runMix_cases Config.machine d a n s with ⟨e', he', raised⟩ | ⟨unraised, -⟩
  · obtain rfl := Option.some.inj (h.symm.trans he')
    exact congrArg Host.Outcome.next raised
  · cases h.symm.trans unraised

/-- The first cause, read off the conditions of R130. -/
theorem firstCause_mixChecks (c : Config) (a n : Field8) (s : State) :
    firstCause (mixChecks c a n s) =
      if slotCount < a.toNat + n.toNat then some (.illegal .mixRange)
      else if n = 0 then some .emptyMix
      else if c.resCap < n.toNat * mixLength a n s then some .resource else none := by
  simp only [mixChecks, firstCause, decide_eq_true_eq]

theorem slotBuf_storeResult_same (d : Field8) (l : Buffer) (q : Tally) {s : State} (hs : Memory.wf s.slots = true) :
    slotBuf (storeResult d l q s) d.toNat = l := by
  rw [slotBuf_storeResult _ _ _ _ _ hs, if_pos rfl]

theorem bufLen_storeResult_mixLoop {s : State} (hs : Memory.wf s.slots = true) (d a n : Field8) (len : Nat)
    (q : Tally) : bufLen (storeResult d (mixLoop a n s len).out q s) d.toNat = len := by
  rw [bufLen, slotBuf_storeResult_same _ _ _ hs, (mixLoop_streamAfter a n s len).length]

theorem bufRead_storeResult_mixLoop {s : State} (hs : Memory.wf s.slots = true) (d a n : Field8) (q : Tally)
    {len i : Nat} (hi : i < len) :
    bufRead (storeResult d (mixLoop a n s len).out q s) d.toNat i = quantise (mixValue a n s i) := by
  have inside : i < (mixLoop a n s len).out.length := by rwa [(mixLoop_streamAfter a n s len).length]
  rw [bufRead, slotBuf_storeResult_same _ _ _ hs, List.getD_eq_getElem _ _ inside]
  simp only [mixLoop_out, List.getElem_map, List.getElem_range]

end Sys2Proof.Machine

open Sys2Proof Sys2Proof.Machine

/-- Settles O14: the loop of a legal `MIX` quantises and counts `mixValue` below the greatest length. -/
theorem mixCompletes : Obligations.MixCompletes := by
  intro s d a n legal hs source value
  obtain ⟨atLeast, attained⟩ := mixLength_spec a n s
  have hvalue : value = mixValue a n s := by
    funext i
    simp only [value, source, ite_bufRead, mixValue_eq]
  have counted := mixLoop_counted a n s (mixLength a n s)
  rw [hvalue]
  refine ⟨_, mixLength a n s, exec_mix_of_legal legal d, atLeast, attained legal.count,
    bufLen_storeResult_mixLoop hs d a n _ _, fun i hi => bufRead_storeResult_mixLoop hs d a n _ hi,
    ⟨counted.storeResult_frame d _, counted.2⟩, fun k hk => readByte_congr ?other⟩
  case other => rw [slotBuf_storeResult _ _ _ _ _ hs, if_neg hk.symm]

/-- Settles O20, by the first cause in each case; `L` is at least the length of every source. -/
theorem mixErrorsInOrder : Obligations.MixErrorsInOrder := by
  intro s d a n e50 e9 e32
  have first := firstCause_mixChecks Config.machine a n s
  refine ⟨fun h50 => ?_, fun h50 h9 => ?_, fun h50 h9 ⟨k, hk, work⟩ => ?_⟩
  · exact exec_mix_of_firstCause (first.trans (if_pos h50)) d
  · rw [if_neg h50, if_pos h9] at first
    exact exec_mix_of_firstCause first d
  · have longest : n.toNat * bufLen s (a.toNat + k) ≤ n.toNat * mixLength a n s :=
      Nat.mul_le_mul_left _ ((mixLength_spec a n s).1 k hk)
    rw [if_neg h50, if_neg h9, if_pos (work.trans_le longest)] at first
    exact exec_mix_of_firstCause first d

/-- Settles O46: no value is over range, so the clipping record stays as it starts. -/
theorem mixWithinUnitGainNeverClips : Obligations.MixWithinUnitGainNeverClips := by
  intro s d a n legal samples gain
  refine ⟨_, exec_mix_of_legal legal d, ?_⟩
  rw [mixLoop_q_of_unitGain legal.count samples gain]
  exact ⟨statusWord_unclipped, rfl⟩

/-- Settles O45: a lone source is multiplied by the integer gain; with gain 0, or silent sources, every value is 0. -/
theorem mixCopiesNegatesAndSilences : Obligations.MixCopiesNegatesAndSilences := by
  intro s d a n legal hs samples
  have unclipped (gain : |s.params.mgain| ≤ 1) :
      statusWord 0 (mixLoop a n s (mixLength a n s)).q.clipped 0 = 0 := by
    rw [mixLoop_q_of_unitGain legal.count samples gain]
    exact statusWord_unclipped
  obtain ⟨atLeast, attained⟩ := mixLength_spec a n s
  refine ⟨_, exec_mix_of_legal legal d, ?_⟩
  rw [bufLen_storeResult_mixLoop hs, slotBuf_storeResult_same _ _ _ hs]
  refine ⟨atLeast, attained legal.count, fun one gain => ⟨?copied, unclipped (by rw [gain, abs_one])⟩,
    fun one gain => ⟨?negated, unclipped (by rw [gain, abs_neg, abs_one])⟩,
    fun gain => eq_zero_of_mem_mixLoop_out (mixValue_of_mgain_eq_zero gain a n) _,
    fun silent => eq_zero_of_mem_mixLoop_out (mixValue_of_silent silent) _⟩
  case copied =>
    subst one
    rw [mixLoop_one_out samples (g := 1) (by decide) (by rw [gain, Int.cast_one])]
    simp only [one_mul, List.map_id']
  case negated =>
    subst one
    rw [mixLoop_one_out samples (g := -1) (by decide) (by rw [gain, Int.cast_neg, Int.cast_one])]
    simp only [neg_one_mul]

end

section
/-! PROOFS. Reverb (spec/44_reverb.md): each output sample in terms of the one a delay earlier (`reverbLoop_out`,
`reverbOut_of_le`), when the loop only copies (`reverbLoop_eq_copy`), and the causes `REVERB` and `LOWPASS` raise. -/

namespace Sys2Proof.Machine

/-! ### The output, sample by sample (R142, R143) -/

/-- The delay as a number of samples (R141). -/
def delaySamples (c : Config) (p : Params) : Nat := (reverbDelay c p).toNat

theorem ReverbLegal.delaySamples_pos {c : Config} {p : Params} (h : ReverbLegal c p) : 0 < delaySamples c p :=
  Int.lt_toNat.mpr h.delay

/-- Sample `i` of the output: the loop appends it in pass `i`. -/
def reverbOut (c : Config) (a : Field8) (s : State) (i : Nat) : Int := (reverbLoop c a s (i + 1)).out.getD i 0

/-- Sample `i` before the quantiser, from the delay on (R140, R142). -/
def reverbValue (c : Config) (a : Field8) (s : State) (i : Nat) : Num :=
  (bufRead s a.toNat i : Num) + s.params.rdecay * (reverbOut c a s (i - delaySamples c s.params) : Num)

theorem reverbLoop_length (c : Config) (a : Field8) (s : State) (n : Nat) : (reverbLoop c a s n).out.length = n :=
  (reverbLoop_streamAfter c a s n).length

/-- A pass appends one sample, and leaves those before it. -/
theorem exists_reverbLoop_succ_out (c : Config) (a : Field8) (s : State) (n : Nat) :
    ∃ x, (reverbLoop c a s (n + 1)).out = (reverbLoop c a s n).out ++ [x] := by
  rw [reverbLoop, forRange_succ, reverbSample]
  split
  · exact ⟨_, rfl⟩
  · exact ⟨_, rfl⟩

theorem reverbOut_of_append {c : Config} {a : Field8} {s : State} {i : Nat} {x : Int}
    (h : (reverbLoop c a s (i + 1)).out = (reverbLoop c a s i).out ++ [x]) : reverbOut c a s i = x := by
  rw [reverbOut, h, List.getD_append_right _ _ _ _ (reverbLoop_length c a s i).le, reverbLoop_length, Nat.sub_self,
    List.getD_cons_zero]

theorem reverbLoop_out (c : Config) (a : Field8) (s : State) (n : Nat) :
    (reverbLoop c a s n).out = (List.range n).map (reverbOut c a s) := by
  induction n with
  | zero => rfl
  | succ n ih =>
    obtain ⟨x, hx⟩ := exists_reverbLoop_succ_out c a s n
    rw [hx, ih, List.range_succ, List.map_append, List.map_singleton, reverbOut_of_append hx]

/-- A sample the loop has appended is not changed by a later pass. -/
theorem reverbLoop_out_getD {i n : Nat} (h : i < n) (c : Config) (a : Field8) (s : State) :
    (reverbLoop c a s n).out.getD i 0 = reverbOut c a s i := by
  have inside : i < (reverbLoop c a s n).out.length := by rwa [reverbLoop_length]
  rw [List.getD_eq_getElem _ _ inside]
  simp only [reverbLoop_out, List.getElem_map, List.getElem_range]

theorem reverbLoop_succ_of_lt {c : Config} {s : State} {n : Nat} (h : n < delaySamples c s.params) (a : Field8) :
    reverbLoop c a s (n + 1) = (reverbLoop c a s n).copy (bufRead s a.toNat n) := if_pos h

/-- From the delay on, the tap reads a sample of the output that is there already (R142). -/
theorem reverbLoop_succ_of_le {c : Config} {s : State} {n : Nat} (positive : 0 < delaySamples c s.params)
    (h : delaySamples c s.params ≤ n) (a : Field8) :
    reverbLoop c a s (n + 1) = (reverbLoop c a s n).push (reverbValue c a s n) := by
  rw [reverbValue, ← reverbLoop_out_getD (show n - delaySamples c s.params < n by omega)]
  exact if_neg (not_lt.mpr h)

theorem reverbOut_of_lt {c : Config} {s : State} {i : Nat} (h : i < delaySamples c s.params) (a : Field8) :
    reverbOut c a s i = bufRead s a.toNat i :=
  reverbOut_of_append (congrArg Stream.out (reverbLoop_succ_of_lt h a))

theorem reverbOut_of_le {c : Config} {s : State} {i : Nat} (positive : 0 < delaySamples c s.params)
    (h : delaySamples c s.params ≤ i) (a : Field8) : reverbOut c a s i = quantise (reverbValue c a s i) :=
  reverbOut_of_append (congrArg Stream.out (reverbLoop_succ_of_le positive h a))

/-! ### The clipping record: only samples past the delay reach the quantiser (R56, R143) -/

/-- The indices below `n` at which `REVERB` clips. -/
def echoClips (c : Config) (a : Field8) (s : State) (n : Nat) : Finset Nat :=
  (Finset.range n).filter fun i => delaySamples c s.params ≤ i ∧ 32767 < |reverbValue c a s i|

theorem card_echoClips_succ (c : Config) (a : Field8) (s : State) (n : Nat) :
    (echoClips c a s (n + 1)).card =
      (echoClips c a s n).card +
        if delaySamples c s.params ≤ n ∧ 32767 < |reverbValue c a s n| then 1 else 0 := by
  simp only [echoClips, Finset.card_filter, Finset.sum_range_succ]

theorem reverbLoop_counted {c : Config} {s : State} (positive : 0 < delaySamples c s.params) (a : Field8) (n : Nat) :
    Counted (Tally.start s) (echoClips c a s n).card (reverbLoop c a s n).q := by
  induction n with
  | zero => exact Counted.zero _
  | succ n ih =>
    rw [card_echoClips_succ]
    rcases lt_or_ge n (delaySamples c s.params) with before | past
    · rw [reverbLoop_succ_of_lt before, if_neg fun clips => not_le.mpr before clips.1]
      exact ih
    · simp only [reverbLoop_succ_of_le positive past, past, true_and, ← overRange_iff_abs]
      exact ih.push _

/-! ### A reverb without an echo (R145) -/

/-- The quantiser copies a sample and counts nothing. -/
theorem Stream.push_intCast {x : Int} (h : IsSample x) (o : Stream) : o.push (x : Num) = o.copy x := by
  rw [Stream.push, q16_fst, quantise_intCast h, q16_snd_of_not _ (overRange_intCast h), Stream.copy]

theorem reverbSample_eq_copy {d i : Nat} {decay : Num} {l : Buffer} (silent : i < d ∨ decay = 0)
    (sample : IsSample (l.getD i 0)) (o : Stream) : reverbSample d decay l i o = o.copy (l.getD i 0) := by
  unfold reverbSample
  split
  · rfl
  · next past =>
    obtain rfl := silent.resolve_left past
    rw [zero_mul, add_zero, Stream.push_intCast sample]

theorem isSample_bufRead {s : State} {k i : Nat} (samples : ∀ x ∈ slotBuf s k, IsSample x) (h : i < bufLen s k) :
    IsSample (bufRead s k i) :=
  samples _ (List.mem_of_getElem? (getElem?_slotBuf h))

theorem reverbLoop_eq_copy {c : Config} {a : Field8} {s : State} (samples : ∀ x ∈ slotBuf s a.toNat, IsSample x)
    (silent : s.params.rdecay = 0 ∨ bufLen s a.toNat ≤ delaySamples c s.params) :
    reverbLoop c a s (bufLen s a.toNat) = { out := slotBuf s a.toNat, q := Tally.start s } := by
  rw [← map_bufRead_range s a.toNat]
  refine forRange_induction
    (P := fun n (o : Stream) => o = { out := (List.range n).map (bufRead s a.toNat), q := Tally.start s }) rfl
    fun i o hi ih => ?_
  refine (reverbSample_eq_copy (silent.symm.imp_left hi.trans_le) (isSample_bufRead samples hi) o).trans ?_
  rw [ih, List.range_succ, List.map_append]
  rfl

/-! ### `REVERB` and `LOWPASS` -/

theorem exec_reverb_of_legal {s : State} (h : ReverbLegal Config.machine s.params) (d a : Field8) :
    exec (.reverb d a) s =
      .next (storeResult d (reverbLoop Config.machine a s (bufLen s a.toNat)).out
        (reverbLoop Config.machine a s (bufLen s a.toNat)).q s) :=
  congrArg Host.Outcome.next (runReverb_of_legal h d a)

theorem bufRead_storeResult_same {s : State} (hs : Memory.wf s.slots = true) (d : Field8) (l : Buffer) (q : Tally)
    (i : Nat) : bufRead (storeResult d l q s) d.toNat i = l.getD i 0 := by
  rw [bufRead, slotBuf_storeResult_same _ _ _ hs]

/-- The first cause, read off the conditions of R140. -/
theorem firstCause_reverbChecks (c : Config) (p : Params) :
    firstCause (reverbChecks c p) =
      if p.srate ≤ 0 then some .sampleRate else if reverbDelay c p < 1 then some .delay else none := by
  simp only [reverbChecks, firstCause, decide_eq_true_eq]

/-- The one cause of R152, read off its condition. -/
theorem firstCause_lowpassChecks (p : Params) :
    firstCause (lowpassChecks p) = if p.cutoff < 0 ∨ 1 < p.cutoff then some .cutoff else none := by
  simp only [lowpassChecks, firstCause, Bool.or_eq_true, decide_eq_true_eq]

theorem exec_reverb_of_firstCause {s : State} {e : Cause}
    (h : firstCause (reverbChecks Config.machine s.params) = some e) (d a : Field8) : exec (.reverb d a) s = .next { s with status := errorStatus e } := by
  rcases runReverb_cases Config.machine d a s with ⟨e', he', raised⟩ | ⟨unraised, -⟩
  · obtain rfl := Option.some.inj (h.symm.trans he')
    exact congrArg Host.Outcome.next raised
  · cases h.symm.trans unraised

theorem exec_lowpass_of_firstCause {s : State} {e : Cause} (h : firstCause (lowpassChecks s.params) = some e)
    (d a : Field8) : exec (.lowpass d a) s = .next { s with status := errorStatus e } := by
  rcases runLowpass_cases Config.machine d a s with ⟨e', he', raised⟩ | ⟨unraised, -⟩
  · obtain rfl := Option.some.inj (h.symm.trans he')
    exact congrArg Host.Outcome.next raised
  · cases h.symm.trans unraised

end Sys2Proof.Machine

open Sys2Proof Sys2Proof.Machine

/-- Settles O15: the loop appends the source before the delay and the quantised `reverbValue` from there on, and the
sample its tap reads is the one it stores. -/
theorem reverbCompletes : Obligations.ReverbCompletes := by
  intro s d a legal hs delay
  have positive : 0 < delay := legal.delaySamples_pos
  have counted := reverbLoop_counted positive a (bufLen s a.toNat)
  refine ⟨_, exec_reverb_of_legal legal d a, ?length, ?_, fun k hk => readByte_congr ?other⟩
  case length => rw [bufLen, slotBuf_storeResult_same _ _ _ hs, reverbLoop_length]
  case other => rw [slotBuf_storeResult _ _ _ _ _ hs, if_neg hk.symm]
  intro value
  have stored (i : Nat) (hi : i < bufLen s a.toNat) := (bufRead_storeResult_same hs d _
    (reverbLoop Config.machine a s (bufLen s a.toNat)).q i).trans (reverbLoop_out_getD hi Config.machine a s)
  have hvalue (i : Nat) (hi : i < bufLen s a.toNat) : value i = reverbValue Config.machine a s i := by
    simp only [value]
    rw [stored _ ((Nat.sub_le i delay).trans_lt hi)]
    rfl
  refine ⟨fun i hi => ?samples, ?record⟩
  case samples =>
    rw [stored i hi, hvalue i hi]
    split
    · next before => exact reverbOut_of_lt before a
    · next past => exact reverbOut_of_le positive (not_lt.mp past) a
  case record =>
    intro clips
    have hclips : clips = (echoClips Config.machine a s (bufLen s a.toNat)).card :=
      congrArg Finset.card (Finset.filter_congr fun i hi => by rw [hvalue i (Finset.mem_range.mp hi)]; rfl)
    rw [hclips]
    exact ⟨counted.storeResult_frame d _, counted.2⟩

/-- Settles O47: without an echo inside the source the loop copies every sample and counts nothing. -/
theorem reverbWithoutEchoIsACopy : Obligations.ReverbWithoutEchoIsACopy := by
  intro s d a legal hs samples silent
  have positive := zero_le_one.trans legal.delay
  refine ⟨_, exec_reverb_of_legal legal d a, ?_⟩
  rw [reverbLoop_eq_copy samples (silent.imp_right (Int.le_toNat positive).mpr), slotBuf_storeResult_same _ _ _ hs]
  exact ⟨rfl, statusWord_unclipped, rfl⟩

/-- Settles O21, by the first cause in each case. -/
theorem effectErrorsInOrder : Obligations.EffectErrorsInOrder := by
  intro s d a p e1 e10 e11
  have first := firstCause_reverbChecks Config.machine p
  refine ⟨fun h1 => ?_, fun h1 h10 => ?_, fun h11 => ?_⟩
  · exact exec_reverb_of_firstCause (first.trans (if_pos h1)) d a
  · exact exec_reverb_of_firstCause (first.trans ((if_neg h1).trans (if_pos h10))) d a
  · exact exec_lowpass_of_firstCause ((firstCause_lowpassChecks p).trans (if_pos h11)) d a

end

section
/-! PROOFS. Low-pass filter (spec/45_lowpass.md): each output sample is the quantised `lowpassValue` (`lowpassLoop_out`,
`lowpassLoop_counted`); where those values are samples the filter stores them as they are (`exec_lowpass_of_samples`),
which is all that the two ends of the range of `CUTOFF` need. -/

namespace Sys2Proof.Machine

/-! ### One update with a full step, and with none (R155, R156) -/

/-- When the two states agree there is no feedback, and a full step goes all the way to the input. -/
theorem filterB0_one (fb x b : Num) : filterB0 1 fb x b b = x := by
  rw [filterB0, sub_self, mul_zero, add_zero, one_mul, add_sub_cancel]

theorem filterB1_one (b0 b1 : Num) : filterB1 1 b0 b1 = b0 := by
  rw [filterB1, one_mul, add_sub_cancel]

theorem filterB0_zero (fb x b0 b1 : Num) : filterB0 0 fb x b0 b1 = b0 := by
  rw [filterB0, zero_mul, add_zero]

theorem filterB1_zero (b0 b1 : Num) : filterB1 0 b0 b1 = b1 := by
  rw [filterB1, zero_mul, add_zero]

/-! ### The states and the output, sample by sample (R150, R153, R154) -/

/-- Sample `i` before the quantiser: the state `b1` once pass `i` is done. -/
def lowpassValue (c : Config) (a : Field8) (s : State) (i : Nat) : Num := (lowpassLoop c a s (i + 1)).b1

theorem lowpassLoop_succ_b0 (c : Config) (a : Field8) (s : State) (n : Nat) :
    (lowpassLoop c a s (n + 1)).b0 =
      filterB0 s.params.cutoff (lowpassFeedback c s.params) (bufRead s a.toNat n) (lowpassLoop c a s n).b0
        (lowpassLoop c a s n).b1 := rfl

theorem lowpassLoop_succ_b1 (c : Config) (a : Field8) (s : State) (n : Nat) :
    (lowpassLoop c a s (n + 1)).b1 =
      filterB1 s.params.cutoff (lowpassLoop c a s (n + 1)).b0 (lowpassLoop c a s n).b1 := rfl

theorem lowpassLoop_succ_stream (c : Config) (a : Field8) (s : State) (n : Nat) :
    (lowpassLoop c a s (n + 1)).stream = (lowpassLoop c a s n).stream.push (lowpassValue c a s n) := rfl

theorem lowpassLoop_out (c : Config) (a : Field8) (s : State) (n : Nat) :
    (lowpassLoop c a s n).stream.out = (List.range n).map fun i => quantise (lowpassValue c a s i) := by
  induction n with
  | zero => rfl
  | succ n ih =>
    rw [lowpassLoop_succ_stream, Stream.push_out, ih, List.range_succ, List.map_append, List.map_singleton]

theorem lowpassLoop_out_getD {i n : Nat} (h : i < n) (c : Config) (a : Field8) (s : State) :
    (lowpassLoop c a s n).stream.out.getD i 0 = quantise (lowpassValue c a s i) := by
  rw [lowpassLoop_out, List.getD_eq_getElem _ _ (by rwa [List.length_map, List.length_range]), List.getElem_map,
    List.getElem_range]

theorem lowpassLoop_counted (c : Config) (a : Field8) (s : State) (n : Nat) :
    Counted (Tally.start s) (clippedBelow (lowpassValue c a s) n).card (lowpassLoop c a s n).stream.q := by
  induction n with
  | zero => exact Counted.zero _
  | succ n ih => exact ih.push_clippedBelow

/-- Values that are samples are stored as they are, and none is counted. -/
theorem lowpassLoop_stream_of_samples {c : Config} {a : Field8} {s : State} {x : Nat → Int} {n : Nat}
    (values : ∀ i, i < n → lowpassValue c a s i = x i) (samples : ∀ i, i < n → IsSample (x i)) :
    (lowpassLoop c a s n).stream = { out := (List.range n).map x, q := Tally.start s } := by
  induction n with
  | zero => rfl
  | succ n ih =>
    have before := ih (fun i hi => values i (hi.trans n.lt_succ_self)) fun i hi => samples i (hi.trans n.lt_succ_self)
    rw [lowpassLoop_succ_stream, values n n.lt_succ_self, Stream.push_intCast (samples n n.lt_succ_self), before,
      List.range_succ, List.map_append]
    rfl

/-! ### The two ends of the range of `CUTOFF` (R155, R156) -/

/-- At `CUTOFF = 1` the two states agree before every sample. -/
theorem lowpassLoop_b0_of_cutoff_one {s : State} (h : s.params.cutoff = 1) (c : Config) (a : Field8) (n : Nat) :
    (lowpassLoop c a s n).b0 = (lowpassLoop c a s n).b1 := by
  cases n with
  | zero => rfl
  | succ n => rw [lowpassLoop_succ_b1, h, filterB1_one]

theorem lowpassValue_of_cutoff_one {s : State} (h : s.params.cutoff = 1) (c : Config) (a : Field8) (i : Nat) :
    lowpassValue c a s i = bufRead s a.toNat i := by
  rw [lowpassValue, ← lowpassLoop_b0_of_cutoff_one h, lowpassLoop_succ_b0, lowpassLoop_b0_of_cutoff_one h, h,
    filterB0_one]

/-- At `CUTOFF = 0` the output state never moves. -/
theorem lowpassLoop_b1_of_cutoff_zero {s : State} (h : s.params.cutoff = 0) (c : Config) (a : Field8) (n : Nat) :
    (lowpassLoop c a s n).b1 = 0 := by
  induction n with
  | zero => rfl
  | succ n ih => rw [lowpassLoop_succ_b1, h, filterB1_zero, ih]

theorem lowpassValue_of_cutoff_zero {s : State} (h : s.params.cutoff = 0) (c : Config) (a : Field8) (i : Nat) :
    lowpassValue c a s i = (0 : Int) := by
  rw [lowpassValue, lowpassLoop_b1_of_cutoff_zero h, Int.cast_zero]

/-! ### `LOWPASS` -/

theorem exec_lowpass_of_legal {s : State} (h : LowpassLegal s.params) (d a : Field8) :
    exec (.lowpass d a) s =
      .next (storeResult d (lowpassLoop Config.machine a s (bufLen s a.toNat)).stream.out
        (lowpassLoop Config.machine a s (bufLen s a.toNat)).stream.q s) :=
  congrArg Host.Outcome.next (runLowpass_of_legal Config.machine h d a)

/-- A filter whose values are samples stores them without a clipping event. -/
theorem exec_lowpass_of_samples {s : State} {a : Field8} {x : Nat → Int} (legal : LowpassLegal s.params)
    (hs : Memory.wf s.slots = true)
    (values : ∀ i, i < bufLen s a.toNat → lowpassValue Config.machine a s i = x i)
    (samples : ∀ i, i < bufLen s a.toNat → IsSample (x i)) (d : Field8) :
    ∃ t, exec (.lowpass d a) s = .next t ∧ slotBuf t d.toNat = (List.range (bufLen s a.toNat)).map x ∧
      t.status = 0 ∧ t.clipcnt = s.clipcnt := by
  refine ⟨_, exec_lowpass_of_legal legal d a, ?_⟩
  rw [lowpassLoop_stream_of_samples values samples, slotBuf_storeResult_same _ _ _ hs]
  exact ⟨rfl, statusWord_unclipped, rfl⟩

end Sys2Proof.Machine

open Sys2Proof Sys2Proof.Machine

/-- Settles O16: the two states are those the loop carries, and it stores and counts the quantised `b1` of each pass. -/
theorem lowpassCompletes : Obligations.LowpassCompletes := by
  intro s d a legal hs c fb
  have counted := lowpassLoop_counted Config.machine a s (bufLen s a.toNat)
  refine ⟨_, fun n => (lowpassLoop Config.machine a s n).b0, fun n => (lowpassLoop Config.machine a s n).b1,
    exec_lowpass_of_legal legal d a, rfl, rfl, ?length,
    fun i hi => ⟨lowpassLoop_succ_b0 _ a s i, lowpassLoop_succ_b1 _ a s i, ?sample⟩,
    ⟨counted.storeResult_frame d _, counted.2⟩, fun k hk => readByte_congr ?other⟩
  case length => rw [bufLen, slotBuf_storeResult_same _ _ _ hs, (lowpassLoop_streamAfter _ a s _).length]
  case sample => exact (bufRead_storeResult_same hs d _ _ i).trans (lowpassLoop_out_getD hi _ a s)
  case other => rw [slotBuf_storeResult _ _ _ _ _ hs, if_neg hk.symm]

/-- Settles O48: every value is the sample of the source itself. -/
theorem lowpassAtFullCutoffIsTheIdentity : Obligations.LowpassAtFullCutoffIsTheIdentity := by
  intro s d a cutoff hs samples
  have legal : LowpassLegal s.params := ⟨by rw [cutoff]; exact ⟨zero_le_one, le_rfl⟩⟩
  rw [← map_bufRead_range s a.toNat]
  exact exec_lowpass_of_samples legal hs (fun i _ => lowpassValue_of_cutoff_one cutoff _ a i)
    (fun i hi => isSample_bufRead samples hi) d

/-- Settles O49: every value is 0. -/
theorem lowpassAtZeroCutoffIsSilence : Obligations.LowpassAtZeroCutoffIsSilence := by
  intro s d a cutoff hs
  have legal : LowpassLegal s.params := ⟨by rw [cutoff]; exact ⟨le_rfl, zero_le_one⟩⟩
  have silence : (List.range (bufLen s a.toNat)).map (fun _ => (0 : Int)) = List.replicate (bufLen s a.toNat) 0 := by
    rw [List.map_const', List.length_range]
  rw [← silence]
  exact exec_lowpass_of_samples legal hs (fun i _ => lowpassValue_of_cutoff_zero cutoff _ a i)
    (fun _ _ => ⟨by decide, by decide⟩) d

end

section
/-! PROOFS. System (spec/46_system.md): `NOP`; and that both images of a slot stand for its samples
(`imageSamples_wordImage`, `imageSamples_byteImage`), so that a `LOAD` of either stores them
(`perform_load_of_samples`). -/

namespace Sys2Proof.Machine

/-! ### `NOP` (R160) -/

theorem exec_nop (s : State) : exec .nop s = .next { s with status := 0 } := rfl

/-! ### A `LOAD` of what `READ` returned (R163, R164) -/

/-- The samples of a slot as 16-bit words: `PAD`'s list with no zero in front. -/
theorem imageSamples_wordImage {l : Buffer} (samples : ∀ x ∈ l, IsSample x) :
    imageSamples (.samples (l.map (BitVec.ofInt 16))) = some l :=
  imageSamples_padded 0 l samples

/-- The byte view of a slot is the byte image of its words. -/
theorem imageSamples_byteImage {l : Buffer} (samples : ∀ x ∈ l, IsSample x) :
    imageSamples (.bytes (bufferBytes l)) = some l := by
  have words : bufferBytes l =
      (l.map (BitVec.ofInt 16)).flatMap fun x => [x.extractLsb' 0 8, x.extractLsb' 8 8] := by
    rw [List.flatMap_map]
    rfl
  rw [words]
  exact (samplesOfBytes_flatMap _).trans (imageSamples_wordImage samples)

/-- A `LOAD` of an image of samples that fit in a slot is a write of that slot. -/
theorem perform_load_of_samples {image : Image} {l : Buffer} (h : imageSamples image = some l)
    (samples : ∀ x ∈ l, IsSample x) (fits : l.length ≤ Config.machine.bufCap) (d : Field8) (s : State) :
    perform (.load d image) s = .next (bufWrite d.toNat l s) :=
  congrArg Host.Outcome.next
    ((runLoad_of_samples h samples Config.machine d s).trans (if_neg (not_lt.mpr fits)))

end Sys2Proof.Machine

open Sys2Proof Sys2Proof.Machine

/-- Settles O55: each image stands for the samples of the slot, and their number fits, so the `LOAD` writes them. -/
theorem loadRestoresWhatReadReturned : Obligations.LoadRestoresWhatReadReturned := by
  intro s d a hs samples fits image himage
  have stands : imageSamples image = some (slotBuf s a.toNat) := by
    rcases himage with rfl | rfl
    · exact imageSamples_byteImage samples
    · exact imageSamples_wordImage samples
  refine ⟨_, perform_load_of_samples stands samples fits d s, ?_, fun k hk => ?_, rfl⟩
  · rw [slotBuf_bufWrite _ _ _ _ hs, if_pos rfl]
  · rw [slotBuf_bufWrite _ _ _ _ hs, if_neg hk.symm]

/-- Settles O9: the one word is the encoding of `NOP`; any other word with its opcode has a bit set above the opcode. -/
theorem nopCompletes : Obligations.NopCompletes := by
  refine ⟨exec_nop, fun w hop => ⟨?_, fun hne s => ?_⟩⟩
  · have word : encode .nop = 0 := by decide
    rw [decode_eq_ok_iff, word, eq_comm]
    exact and_iff_left rfl
  · have value : w.toNat ≠ 0 := fun h => hne (BitVec.eq_of_toNat_eq h)
    have used : w.toNat / 2 ^ 8 ≠ 0 := by omega
    exact issueCommand_of_holds (k := .unusedField) ((Illegal.holds_unusedField w).mpr (.inl ⟨by omega, used⟩)) s

end

section
/-! PROOFS. Exceptions (spec/60_exceptions.md): the status a success leaves has `ERR` zero (`Success.errField_eq_zero`),
and with it `CAUSE`; and a word of the opcode table placed as the host's next action is issued by the next step
(`step_withFetchWord`). -/

namespace Sys2Proof.Machine

/-! ### The status a success leaves (R39, R177) -/

/-- `ERR` is the lowest field of a status word. -/
theorem errField_statusWord (err : BitVec 3) (clip : Bool) (cause : Byte) :
    errField (statusWord err clip cause) = err :=
  BitVec.extractLsb'_append_eq_right

theorem Success.errField_eq_zero {s t : State} {i : Instr} (h : Success s i t) : errField t.status = 0 := by
  cases h <;> exact errField_statusWord 0 _ 0

/-! ### A word of the opcode table as the next command (R43) -/

theorem decodeTableWord_eq_some_iff {nbits w : Nat} {i : Instr} :
    decodeTableWord nbits w = some i ↔ decode (tableWord nbits w) = .ok i := by
  rw [decodeTableWord]
  cases decode (tableWord nbits w) with
  | ok j => simp
  | error k => simp

/-- The step takes the placed word off the list again, and issues it in the state it was placed in. -/
theorem step_withFetchWord (s : State) (nbits w : Nat) :
    step (s.withFetchWord nbits w) = issueCommand (tableWord nbits w) s :=
  (step_of_inbox_cons (a := issueAction (tableWord nbits w)) (rest := s.inbox) rfl).trans (hostWrite_cmd _ s)

end Sys2Proof.Machine

open Sys2Proof Sys2Proof.Machine

/-- Settles O22: a command raises a cause, or leaves a status with `ERR` zero, and a legal such status has `CAUSE`
zero. -/
theorem everyCommandSucceedsOrChangesOnlyStatus : Obligations.EveryCommandSucceedsOrChangesOnlyStatus := by
  intro i s
  obtain ⟨t, ht, ⟨e, rfl⟩ | success⟩ := exec_cases i s
  · exact .inl ⟨e, ht⟩
  · have noError := success.errField_eq_zero
    exact .inr ⟨t, ht, noError, success.status_legal.none noError⟩

/-- Settles O8: the next step issues the word, which decodes to the command. -/
theorem placedWordRunsNext : Obligations.PlacedWordRunsNext := fun s w _ h =>
  (step_withFetchWord s 32 w).trans (issueCommand_of_ok (decodeTableWord_eq_some_iff.mp h) s)

end
